-- ==== Sys2Proof/Config.lean ====
section
/-! DEFINITION. The parameters of the machine (spec/00_scope.md R7) that are values at the start of a run. `XLEN` and
`CELLW` are the widths of the types Word and Digit (Word.lean). PROG_MAX_CELLS is left open by the spec ("a named
parameter of a physical realisation only"), so it is no constant here: LOAD takes it as an argument
(Machine/Transactions.lean). -/

namespace Sys2Proof.Config

/-- `RESET_PC`, the instruction pointer at the start of a run (R7, R36). -/
def RESET_PC : Nat := 0

/-- `RESET_B`, the value of B at the start of a run (R7, R36). -/
def RESET_B : BitVec 64 := 0

/-- `RESET_C`, the value of C at the start of a run (R7, R36). -/
def RESET_C : BitVec 64 := 0

end Sys2Proof.Config
end

