-- ==== Sys2Proof/Word.lean ====
section
/-! DEFINITION. The data types of the machine: register values, octal digits, and the byte a program cell is held in. -/

namespace Sys2Proof

/-- A register value: an unsigned integer below `2 ^ XLEN`, `XLEN` = 64 (spec/00_scope.md R7, spec/10_state.md R21; the
spec's decision D1). -/
abbrev Word := BitVec 64

/-- A digit: an opcode, an operand, or an element of the output sequence, 0 to 7, `CELLW` = 3 bits (spec/00_scope.md R7,
R9). -/
abbrev Digit := BitVec 3

/-- What a program cell is held in (Host.Cell's byte). A cell of the spec is such a byte below 8
(DESIGN CHOICE, safe: log 3). -/
abbrev Byte := BitVec 8

end Sys2Proof
end

