-- ==== Sys2Proof/Syntax.lean ====
section
/-! DEFINITION. The instruction set (spec/30_encoding.md R70, R75): eight instructions, one operand digit each. -/

namespace Sys2Proof

/-- The three registers (spec/10_state.md R20). -/
inductive Reg where
  | A | B | C
deriving DecidableEq, Repr

/-- One constructor per row of the opcode table (R75), in the table's order. `o` is the operand digit. -/
inductive Instr where
  | adv (o : Digit)   -- opcode 0, combo operand
  | bxl (o : Digit)   -- opcode 1, literal operand
  | bst (o : Digit)   -- opcode 2, combo operand
  | jnz (o : Digit)   -- opcode 3, literal operand
  | bxc (o : Digit)   -- opcode 4, operand ignored
  | out (o : Digit)   -- opcode 5, combo operand
  | bdv (o : Digit)   -- opcode 6, combo operand
  | cdv (o : Digit)   -- opcode 7, combo operand
deriving DecidableEq, Repr

/-- How an opcode reads its operand (R72). -/
inductive OperandKind where
  | literal | combo | ignored
deriving DecidableEq, Repr

/-- The operand digit of an instruction. -/
def Instr.operand : Instr → Digit
  | .adv o => o
  | .bxl o => o
  | .bst o => o
  | .jnz o => o
  | .bxc o => o
  | .out o => o
  | .bdv o => o
  | .cdv o => o

/-- The operand kind of each opcode (R72). -/
def Instr.operandKind : Instr → OperandKind
  | .adv _ => .combo
  | .bxl _ => .literal
  | .bst _ => .combo
  | .jnz _ => .literal
  | .bxc _ => .ignored
  | .out _ => .combo
  | .bdv _ => .combo
  | .cdv _ => .combo

end Sys2Proof
end

