-- ==== Sys2Proof/WellFormed.lean ====
section
/-! DEFINITION. Well-formed programs (spec/30_encoding.md R82): the length is even and every cell is in 0 to 7.
An instruction needs no check of its own: all 64 words are instructions (R76, R77), and an operand is a 3-bit digit
by its type. Well-formedness does not exclude words that fault when executed (R83). -/

namespace Sys2Proof

/-- A program as the host hands it over: a sequence of unsigned integers (spec/50_host_interface.md R150). -/
abbrev Program := List Nat

/-- R82 (a): the length is even. -/
def Program.evenLength (p : Program) : Bool := p.length % 2 == 0

/-- R82 (b): every cell is in 0 to 7. -/
def Program.cellsInRange (p : Program) : Bool := p.all (· < 8)

/-- R82. -/
def Program.wellFormed (p : Program) : Bool := p.evenLength && p.cellsInRange

end Sys2Proof
end

