-- ==== Sys2Proof/Decode.lean ====
section
/-! DEFINITION. Decoding and encoding (spec/30_encoding.md R70 to R76) and the assembler spelling (R79).
An instruction is two cells, the opcode at the lower index (spec/20_memory.md R52). -/

namespace Sys2Proof

/-- Why the bytes at hand are no instruction. No run meets any of these: LOAD refuses ill-formed programs (R82). -/
inductive DecodeError where
  | truncated             -- fewer than two cells are left
  | opcodeOutOfRange      -- the first byte is above 7
  | operandOutOfRange     -- the second byte is above 7
deriving DecidableEq, Repr

/-- An instruction with the bytes after it, or a rejection by name. -/
inductive Decoded where
  | ok (i : Instr) (rest : List Byte)
  | rejected (e : DecodeError)
deriving DecidableEq, Repr

/-- The digit a byte holds, if it holds one. -/
def Byte.digit (x : Byte) : Option Digit :=
  if x.toNat < 8 then some (x.setWidth 3) else none

/-- The byte that holds a digit. -/
def Digit.byte (d : Digit) : Byte := d.setWidth 8

/-- The opcode map (R75), read from the three bits `insn[5:3]`. All eight values are assigned. -/
def Instr.ofDigits (op o : Digit) : Instr :=
  match op.getLsbD 2, op.getLsbD 1, op.getLsbD 0 with
  | false, false, false => .adv o
  | false, false, true  => .bxl o
  | false, true,  false => .bst o
  | false, true,  true  => .jnz o
  | true,  false, false => .bxc o
  | true,  false, true  => .out o
  | true,  true,  false => .bdv o
  | true,  true,  true  => .cdv o

/-- The decoder: total on any bytes. -/
def decode : List Byte → Decoded
  | x :: y :: rest =>
    match Byte.digit x, Byte.digit y with
    | some op, some o => .ok (Instr.ofDigits op o) rest
    | none, _ => .rejected .opcodeOutOfRange
    | some _, none => .rejected .operandOutOfRange
  | _ => .rejected .truncated

/-- The opcode column of R75. -/
def Instr.opcode : Instr → Digit
  | .adv _ => 0b000
  | .bxl _ => 0b001
  | .bst _ => 0b010
  | .jnz _ => 0b011
  | .bxc _ => 0b100
  | .out _ => 0b101
  | .bdv _ => 0b110
  | .cdv _ => 0b111

/-- The two cells of an instruction (R70). -/
def encode (i : Instr) : List Byte := [Digit.byte i.opcode, Digit.byte i.operand]

/-- The 6-bit instruction word `insn = 8 * opcode + operand`, a notation of the spec's tables (R71). -/
def Instr.word (i : Instr) : Nat := 8 * i.opcode.toNat + i.operand.toNat

/-- The two bytes that hold a table word of `nbits` bits: the digit `insn[5:3]` first. The table numbers six bits, so
a word with a bit above them set gives a first byte above 7, which the decoder rejects. -/
def tableCells (nbits w : Nat) : List Byte :=
  [BitVec.ofNat 8 (min (w % 2 ^ nbits / 8) 255), BitVec.ofNat 8 (w % 2 ^ nbits % 8)]

/-- The instruction the decoder reads from a word of spec/opcode_table.json. -/
def decodeTableWord (nbits w : Nat) : Option Instr :=
  match decode (tableCells nbits w) with
  | .ok i _ => some i
  | .rejected _ => none

/-- The mnemonic of each instruction (R75, R79). -/
def Instr.mnemonic : Instr → String
  | .adv _ => "adv"
  | .bxl _ => "bxl"
  | .bst _ => "bst"
  | .jnz _ => "jnz"
  | .bxc _ => "bxc"
  | .out _ => "out"
  | .bdv _ => "bdv"
  | .cdv _ => "cdv"

/-- The decimal character of a digit. -/
def Digit.char (d : Digit) : Char := Char.ofNat (48 + d.toNat)

/-- The assembler line of an instruction: mnemonic, space, operand digit (R79). -/
def Instr.asm (i : Instr) : String := i.mnemonic ++ " " ++ String.ofList [Digit.char i.operand]

end Sys2Proof
end

