-- ==== Sys2Proof/Machine/State.lean ====
section
/-! DEFINITION. The state of the machine (spec/10_state.md), the reasons a step or a transaction can stop, and the
state before the first LOAD and START. -/

namespace Sys2Proof.Machine

/-- The causes of MalformedProgram (spec/60_exceptions.md R171). -/
inductive Cause where
  | invalidComboOperand    -- code 1
  | jumpTargetOutOfRange   -- code 2
  | jumpTargetMisaligned   -- code 3
deriving DecidableEq, Repr

/-- The cause's code (R171). Code 0 is not used. -/
def Cause.code : Cause → Nat
  | .invalidComboOperand => 1
  | .jumpTargetOutOfRange => 2
  | .jumpTargetMisaligned => 3

/-- What a fault records (spec/10_state.md R30, spec/60_exceptions.md R175): the cause, the index of the faulting
instruction's opcode cell, and its operand digit. -/
structure FaultRecord where
  cause : Cause
  fpc   : Nat
  fop   : Digit
deriving DecidableEq, Repr

/-- The run contract of one execution (spec/10_state.md R30). -/
inductive Mode where
  | full | firstOut
deriving DecidableEq, Repr

/-- The status of a run (spec/10_state.md R31). -/
inductive Status where
  | running | halted | stopped | faulted
deriving DecidableEq, Repr

/-- Program memory: the pairs (index, cell), indices strictly rising. An unlisted index holds nothing and reads as no
value (spec/20_memory.md R56). The byte form is log 3. -/
abbrev Memory := List Host.Cell

/-- The canonical form of program memory: the listed indices are 0, 1, 2, … in this order (spec/20_memory.md R56:
a program occupies `0 .. LEN - 1`). -/
abbrev Memory.wf (m : Memory) : Prop := m.map Prod.fst = List.range m.length

/-- The memory holds a well-formed program (spec/30_encoding.md R82): even length, every cell below 8. -/
abbrev Memory.holdsProgram (m : Memory) : Prop := m.length % 2 = 0 ∧ ∀ c ∈ m, c.2.toNat < 8

/-- Everything the spec gives the machine (spec/10_state.md). The status is derived, not stored (R31). -/
structure State where
  /-- register A (R20, R21) -/
  a      : Word
  /-- register B (R20, R21) -/
  b      : Word
  /-- register C (R20, R21) -/
  c      : Word
  /-- the instruction pointer, counted in cells (R25, R27) -/
  pc     : Nat
  /-- the output sequence, oldest digit first (R29) -/
  out    : List Digit
  /-- the fault record (R30) -/
  fault  : Option FaultRecord
  /-- the run's mode (R30) -/
  mode   : Mode
  /-- program memory, `prog` (spec/20_memory.md R50); `LEN` is its length (spec/00_scope.md R11) -/
  mem    : Memory
  /-- a program has been loaded (spec/50_host_interface.md R152) -/
  loaded : Bool
  /-- the LEN of the program the last START began to run; none before the first START (DESIGN CHOICE, safe:
  log 4) -/
  runLen : Option Nat
deriving DecidableEq, Repr

/-- Why the machine stops in a step. -/
inductive Fault where
  /-- Raised by `step` in the status Faulted: an earlier instruction raised MalformedProgram and recorded this
  (spec/60_exceptions.md R178, R191). Safe: the machine takes no step there (spec/40_step_and_operands.md R90). -/
  | malformedProgram (cause : Cause) (fpc : Nat) (fop : Digit)
  /-- Raised by the fetch of `step` where the program has no cell at this index. No run meets it
  (spec/20_memory.md R56). Safe: the model stops in states the spec excludes (log 6). -/
  | noCellAt (index : Nat)
  /-- Raised by the fetch of `step` where the byte at this index is above 7. No run meets it
  (spec/30_encoding.md R82). Safe: the model stops in states the spec excludes (log 6). -/
  | cellAboveSeven (index : Nat)
deriving DecidableEq, Repr

/-- Why an instruction has no meaning, or a host transaction is turned away. -/
inductive Refusal where
  /-- An instruction without a meaning; no arm of `exec` answers it. Safe. -/
  | notModelled (mnemonic : String)
  /-- LOAD of a program of odd length (spec/50_host_interface.md R151). Safe. -/
  | oddLength
  /-- LOAD of a program with a cell above 7 (R151). Safe. -/
  | cellOutOfRange
  /-- LOAD of a program longer than the realisation's bound (R151). Safe. -/
  | programTooLong
  /-- START before any LOAD (R152). Safe. -/
  | noProgram
  /-- START with an `initial_a` that does not fit in XLEN bits (R152). Safe. -/
  | seedOutOfRange
  /-- LOAD or START while the status is Running, which the interface gives no move (R158). Safe. -/
  | runInProgress
deriving DecidableEq, Repr

/-- The outcome of a step or of a transaction. -/
abbrev Outcome := Host.Outcome State Fault Refusal

/-- The machine before the first LOAD and START. The spec leaves the per-run state unspecified here (R36, R200); every
value is a DESIGN CHOICE, B, C, pc, out and fault standing at START's values (unsafe: log 1). -/
def State.reset : State where
  a      := 0
  b      := Config.RESET_B
  c      := Config.RESET_C
  pc     := Config.RESET_PC
  out    := []
  fault  := none
  mode   := .full
  mem    := []
  loaded := false
  runLen := none

end Sys2Proof.Machine
end

