-- ==== Sys2Proof/Machine/Flags.lean ====
section
/-! DEFINITION. The machine has no flags (spec/10_state.md R32). Its only conditions stand here: the status function
(R31) and the condition of `jnz` (spec/43_control_transfer.md R130). -/

namespace Sys2Proof.Machine

/-- The status of a run over a program of `len` cells, in the priority of R31. -/
def State.runStatus (s : State) (len : Nat) : Status :=
  if s.fault.isSome then .faulted
  else if s.mode = .firstOut ∧ 1 ≤ s.out.length then .stopped
  else if len ≤ s.pc then .halted
  else .running

/-- The status of the machine (R31), none before the first START (spec/50_host_interface.md R151). -/
def State.status (s : State) : Option Status := s.runLen.map s.runStatus

/-- Whether `jnz` is taken: all bits of A are tested (spec/43_control_transfer.md R130). -/
def State.jumpTaken (s : State) : Bool := s.a != 0

end Sys2Proof.Machine
end

