-- ==== Sys2Proof/Machine/Operands.lean ====
section
/-! DEFINITION. Operand resolution (spec/40_step_and_operands.md R93, R94) and register access. -/

namespace Sys2Proof.Machine

/-- The value a register holds (spec/10_state.md R20). -/
def State.readReg (s : State) : Reg → Word
  | .A => s.a
  | .B => s.b
  | .C => s.c

/-- Writing one register changes no other (R20); none is hardwired (R22). -/
def State.writeReg (s : State) (r : Reg) (v : Word) : State :=
  match r with
  | .A => { s with a := v }
  | .B => { s with b := v }
  | .C => { s with c := v }

/-- `literal(o)` at register width: zero-extended, never scaled (R93; spec/30_encoding.md R73). -/
def literalWord (o : Digit) : Word := o.setWidth 64

/-- `literal(o)` as a program index (R93). -/
def literalIndex (o : Digit) : Nat := o.toNat

/-- `combo(o)` (R94): 0 to 3 are themselves, 4, 5, 6 read A, B, C in full, and 7 has no value. -/
def combo (s : State) (o : Digit) : Option Word :=
  match o.toNat with
  | 4 => some (s.readReg .A)
  | 5 => some (s.readReg .B)
  | 6 => some (s.readReg .C)
  | 7 => none
  | _ => some (literalWord o)

end Sys2Proof.Machine
end

