-- ==== Sys2Proof/Machine/Ops.lean ====
section
/-! DEFINITION. The operations the instructions share: program memory and fetch, the shift function, the default
advance, the output sequencer, and raising MalformedProgram. -/

namespace Sys2Proof.Machine

/-! Program memory (spec/20_memory.md). No operation of the machine writes it (R61, R64). -/

/-- The cell at an index; none where the program has no cell (R56). -/
def Memory.read : Memory → Nat → Option Byte
  | [], _ => none
  | (k, x) :: m, i => if k = i then some x else Memory.read m i

/-- Bytes laid out at consecutive indices from `base`. -/
def Memory.place (base : Nat) : List Byte → Memory
  | [] => []
  | x :: xs => (base, x) :: Memory.place (base + 1) xs

/-- The memory that LOAD leaves (spec/50_host_interface.md R151). -/
def Memory.ofProgram (p : Program) : Memory := Memory.place 0 (p.map (BitVec.ofNat 8))

/-- The sequence of cells a memory holds. -/
def Memory.program (m : Memory) : Program := m.map fun c => c.2.toNat

/-- The memory with the given bytes at `i`, `i + 1`, … and every other cell kept; indices below `i` that had no cell
hold 0. Only `withFetchWord` uses it: the machine itself never writes program memory. -/
def Memory.patch (m : Memory) (i : Nat) (xs : List Byte) : Memory :=
  let old := m.map Prod.snd
  Memory.place 0 (old.take i ++ List.replicate (i - old.length) 0 ++ xs ++ old.drop (i + xs.length))

/-- A fetched instruction, or why there is none. -/
inductive Fetched where
  | ok (i : Instr)
  | stuck (f : Fault)
deriving DecidableEq, Repr

/-- `MemRead(pc, 2)` and the decoding of what it reads (spec/40_step_and_operands.md R91; spec/20_memory.md R54). The
stuck answers belong to states no run reaches (R56; DESIGN CHOICE, safe: log 6). -/
def fetch (s : State) : Fetched :=
  match Memory.read s.mem s.pc, Memory.read s.mem (s.pc + 1) with
  | some x, some y =>
    match decode [x, y] with
    | .ok i _ => .ok i
    | .rejected .operandOutOfRange => .stuck (.cellAboveSeven (s.pc + 1))
    | .rejected _ => .stuck (.cellAboveSeven s.pc)
  | none, _ => .stuck (.noCellAt s.pc)
  | some _, none => .stuck (.noCellAt (s.pc + 1))

/-- `shr(a, v) = floor(a / 2 ^ v)` (spec/40_step_and_operands.md R102): 0 for every count at or above XLEN, the count
never reduced modulo anything (the spec's decision D16). -/
def shr (a v : Word) : Word := if v.toNat < 64 then a >>> v.toNat else 0

/-- `v mod 8`, the low three bits (spec/00_scope.md R12). -/
def low3 (v : Word) : Digit := v.setWidth 3

/-- The default advance, `pc <- pc + 2` (spec/40_step_and_operands.md R96). -/
def State.advance (s : State) : State := { s with pc := s.pc + 2 }

/-- `OutAppend(d)` (spec/00_scope.md R12, spec/44_output.md R141): the digit goes at the end. -/
def State.outAppend (s : State) (d : Digit) : State := { s with out := s.out ++ [d] }

/-- Taking the machine's one exception, `raise MalformedProgram(cause, (pc, o))` (spec/60_exceptions.md R178): the
record is written and nothing else. The next state's status is Faulted, which is terminal (R180): there is no return,
only a new START leaves it. -/
def raise (cause : Cause) (o : Digit) (s : State) : Outcome :=
  .next { s with fault := some { cause := cause, fpc := s.pc, fop := o } }

/-- An instruction over a combo operand: resolve the operand from the old registers, then the effect, then the default
advance; a raise comes before any write (spec/40_step_and_operands.md R95 to R97). -/
def withCombo (o : Digit) (s : State) (effect : Word → State) : Outcome :=
  match combo s o with
  | some v => .next (effect v).advance
  | none => raise .invalidComboOperand o s

/-- What `step` answers in the status Faulted: the recorded fault, loudly (spec/60_exceptions.md R191; DEDUCED, safe:
log 5). -/
def reportFault (s : State) : Outcome :=
  match s.fault with
  | some r => .fault (.malformedProgram r.cause r.fpc r.fop)
  | none => .next s

end Sys2Proof.Machine
end

