-- ==== Sys2Proof/Machine/Bitwise.lean ====
section
/-! DEFINITION. The bitwise and modulo instructions (spec/42_bitwise.md). The destination of all three is B (R123). -/

namespace Sys2Proof.Machine

/-- `bxl` (R120): `B <- B xor literal(o)`. -/
def execBxl (o : Digit) (s : State) : Outcome :=
  .next (s.writeReg .B (s.readReg .B ^^^ literalWord o)).advance

/-- `bst` (R121): `B <- combo(o) mod 8`. -/
def execBst (o : Digit) (s : State) : Outcome :=
  withCombo o s fun v => s.writeReg .B ((low3 v).setWidth 64)

/-- `bxc` (R122): `B <- B xor C`. The operand cell is not examined, so 7 raises nothing (the spec's decision D27). -/
def execBxc (_o : Digit) (s : State) : Outcome :=
  .next (s.writeReg .B (s.readReg .B ^^^ s.readReg .C)).advance

end Sys2Proof.Machine
end

