-- ==== Sys2Proof/Machine/Control.lean ====
section
/-! DEFINITION. The control transfer instruction (spec/43_control_transfer.md). -/

namespace Sys2Proof.Machine

/-- A taken jump (R131): the out-of-range check comes first, then the alignment check, then `pc <- t`. -/
def jumpTo (o : Digit) (s : State) : Outcome :=
  if s.mem.length ≤ literalIndex o then raise .jumpTargetOutOfRange o s
  else if literalIndex o % 2 = 1 then raise .jumpTargetMisaligned o s
  else .next { s with pc := literalIndex o }

/-- `jnz` (R130): taken when A is not 0; otherwise the operand is not examined and pc advances by 2. -/
def execJnz (o : Digit) (s : State) : Outcome :=
  if s.jumpTaken then jumpTo o s else .next s.advance

end Sys2Proof.Machine
end

