-- ==== Sys2Proof/Machine/Output.lean ====
section
/-! DEFINITION. The output instruction (spec/44_output.md). -/

namespace Sys2Proof.Machine

/-- `out` (R140): `OutAppend(combo(o) mod 8)`. -/
def execOut (o : Digit) (s : State) : Outcome :=
  withCombo o s fun v => s.outAppend (low3 v)

end Sys2Proof.Machine
end

