-- ==== Sys2Proof/Machine/Shift.lean ====
section
/-! DEFINITION. The shift ("divide") instructions (spec/41_shift_divide.md). The dividend is always A (R113). -/

namespace Sys2Proof.Machine

/-- `adv` (R110): `A <- shr(A, combo(o))`. -/
def execAdv (o : Digit) (s : State) : Outcome :=
  withCombo o s fun v => s.writeReg .A (shr (s.readReg .A) v)

/-- `bdv` (R111): `B <- shr(A, combo(o))`. -/
def execBdv (o : Digit) (s : State) : Outcome :=
  withCombo o s fun v => s.writeReg .B (shr (s.readReg .A) v)

/-- `cdv` (R112): `C <- shr(A, combo(o))`. -/
def execCdv (o : Digit) (s : State) : Outcome :=
  withCombo o s fun v => s.writeReg .C (shr (s.readReg .A) v)

end Sys2Proof.Machine
end

