-- ==== Sys2Proof/Machine/Step.lean ====
section
/-! DEFINITION. One step (spec/40_step_and_operands.md R90 to R92), and the state whose next step runs a given word. -/

namespace Sys2Proof.Machine

/-- A step is taken exactly in the status Running (R90). Before the first START, and in Halted and Stopped, the state
does not change; in Faulted the recorded fault is the outcome (DEDUCED, safe: log 5). -/
def step (s : State) : Host.Outcome State Fault Refusal :=
  match s.status with
  | some .running =>
    match fetch s with
    | .ok i => exec i s
    | .stuck f => .fault f
  | some .faulted => reportFault s
  | some .halted => .next s
  | some .stopped => .next s
  | none => .next s

/-- The state whose next step fetches and runs the table word `w`: its two cells stand at `pc`, a run of the program
they belong to is in progress, no fault is recorded, and a FIRST_OUT run that has already stopped goes on as a full run
(DESIGN CHOICE, unsafe: log 2). -/
def State.withFetchWord (s : State) (nbits w : Nat) : State :=
  let m := Memory.patch s.mem s.pc (tableCells nbits w)
  { s with
    mem := m
    loaded := true
    runLen := some m.length
    fault := none
    mode := if s.out.isEmpty then s.mode else .full }

end Sys2Proof.Machine
end

