-- ==== Sys2Proof/Machine/Transactions.lean ====
section
/-! DEFINITION. The host's three transactions, LOAD, START and RESULT, and the listing (spec/50_host_interface.md). -/

namespace Sys2Proof.Machine

/-- LOAD(`p`) (R151). `bound` is the realisation's PROG_MAX_CELLS, none where it has no bound (spec/00_scope.md R7).
A refused LOAD changes nothing. The order of the checks is the order R151 lists them in
(DESIGN CHOICE, unsafe: log 7). The bound as an argument is log 9. -/
def State.load (bound : Option Nat) (p : Program) (s : State) : Outcome :=
  if s.status = some .running then .refused .runInProgress
  else if !p.evenLength then .refused .oddLength
  else if !p.cellsInRange then .refused .cellOutOfRange
  else if bound.any (· < p.length) then .refused .programTooLong
  else .next { s with mem := Memory.ofProgram p, loaded := true }

/-- START(`initial_a`, `mode`) (R152), the machine's one reset (spec/70_reset_and_hazards.md R200): the per-run state is
set to the values of spec/10_state.md R36, and the program is kept. The order of the
checks is a DESIGN CHOICE (unsafe: log 7). -/
def State.start (initialA : Nat) (mode : Mode) (s : State) : Outcome :=
  if s.status = some .running then .refused .runInProgress
  else if !s.loaded then .refused .noProgram
  else if 2 ^ 64 ≤ initialA then .refused .seedOutOfRange
  else .next { s with
    a      := BitVec.ofNat 64 initialA
    b      := Config.RESET_B
    c      := Config.RESET_C
    pc     := Config.RESET_PC
    out    := []
    fault  := none
    mode   := mode
    runLen := some s.mem.length }

/-- What the host may read of a run that has ended (R156). -/
structure RunReport where
  status : Status
  out    : List Digit
  fault  : Option FaultRecord
  a      : Word
  b      : Word
  c      : Word
  pc     : Nat
deriving DecidableEq, Repr

/-- RESULT (R156): none before the first START and while the status is Running. Reading changes nothing. -/
def State.result (s : State) : Option RunReport :=
  match s.status with
  | none => none
  | some .running => none
  | some st => some { status := st, out := s.out, fault := s.fault, a := s.a, b := s.b, c := s.c, pc := s.pc }

/-- The characters of the listing (R157). -/
def listingChars : List Digit → List Char
  | [] => []
  | [d] => [Digit.char d]
  | d :: ds => Digit.char d :: ',' :: listingChars ds

/-- The listing of an output sequence (R157): its digits joined by single commas; the empty sequence lists as "". -/
def listing (out : List Digit) : String := String.ofList (listingChars out)

end Sys2Proof.Machine
end

