-- ==== Sys2Proof/Machine/Runs.lean ====
section
/-! DEFINITION. Runs and the two run contracts (spec/40_step_and_operands.md R100, R101; spec/50_host_interface.md R153,
R154). A run need not end, so it is computed under fuel (R101; DEDUCED, safe: log 8). -/

namespace Sys2Proof.Machine

/-- At most `n` steps of a run; it stays at the first state whose status is not Running (R100). -/
def runFor : Nat → State → Outcome
  | 0, s => .next s
  | n + 1, s =>
    if s.status = some .running then
      match step s with
      | .next t => runFor n t
      | .fault f => .fault f
      | .refused r => .refused r
    else .next s

/-- What a run contract gives the host. -/
inductive RunResult where
  | sequence (out : List Digit)   -- `execute`: the run Halted (R153)
  | digit (d : Digit)             -- `execute_until_first_output`: the run Stopped (R154)
  | noOutput                      -- `execute_until_first_output`: the run Halted with no output (R154)
  | malformed (r : FaultRecord)   -- the run Faulted
  | unfinished                    -- the fuel ran out while the run was in progress: no result (R101)
  | refused (r : Refusal)         -- LOAD or START was refused: no run began (spec/60_exceptions.md R185)
  | stuck (f : Fault)             -- no run of a loaded program gives this (log 6)
deriving DecidableEq, Repr

/-- LOAD, where the program is not already the loaded one (R153). -/
def loadAsNeeded (bound : Option Nat) (p : Program) (s : State) : Outcome :=
  if s.loaded ∧ Memory.program s.mem = p then .next s else s.load bound p

/-- LOAD as needed, START, and at most `fuel` steps. -/
def runProgram (fuel : Nat) (bound : Option Nat) (mode : Mode) (initialA : Nat) (p : Program) (s : State) : Outcome :=
  match loadAsNeeded bound p s with
  | .next loaded =>
    match loaded.start initialA mode with
    | .next started => runFor fuel started
    | .fault f => .fault f
    | .refused r => .refused r
  | .fault f => .fault f
  | .refused r => .refused r

/-- The result of the run that ended in `s`, by its final status (R153, R154, R207). -/
def State.runResult (s : State) : RunResult :=
  match s.status, s.mode, s.out, s.fault with
  | some .faulted, _, _, some r => .malformed r
  | some .halted, .full, ds, _ => .sequence ds
  | some .halted, .firstOut, _, _ => .noOutput
  | some .stopped, _, d :: _, _ => .digit d
  | _, _, _, _ => .unfinished

/-- The result of a run contract. -/
def resultOf : Outcome → RunResult
  | .next s => s.runResult
  | .fault f => .stuck f
  | .refused r => .refused r

/-- `execute(initial_a, program)` from the host's view of a machine in state `s` (R153). -/
def execute (fuel : Nat) (bound : Option Nat) (initialA : Nat) (p : Program) (s : State) : RunResult :=
  resultOf (runProgram fuel bound .full initialA p s)

/-- `execute_until_first_output(initial_a, program)` (R154). -/
def executeUntilFirstOutput (fuel : Nat) (bound : Option Nat) (initialA : Nat) (p : Program) (s : State) : RunResult :=
  resultOf (runProgram fuel bound .firstOut initialA p s)

end Sys2Proof.Machine
end

