-- ==== Sys2Proof/Safety.lean ====
section
/-! DEFINITION. What claims about the machine are stated in: the spec's tables of destinations and of faulting words,
the invariant of the state, and the states the host can bring the machine to. -/

namespace Sys2Proof.Machine

/-- The register an instruction writes (the "writes" column of spec/10_state.md R23). -/
def destination : Instr → Option Reg
  | .adv _ => some .A
  | .bxl _ => some .B
  | .bst _ => some .B
  | .jnz _ => none
  | .bxc _ => some .B
  | .out _ => none
  | .bdv _ => some .B
  | .cdv _ => some .C

/-- The register a combo operand reads (the "reads through combo" column of R23). -/
def comboReads (o : Digit) : List Reg :=
  if o = 4 then [.A] else if o = 5 then [.B] else if o = 6 then [.C] else []

/-- The registers an instruction reads (the two "reads" columns of R23). -/
def registersRead : Instr → List Reg
  | .adv o => .A :: comboReads o
  | .bxl _ => [.B]
  | .bst o => comboReads o
  | .jnz _ => [.A]
  | .bxc _ => [.B, .C]
  | .out o => comboReads o
  | .bdv o => .A :: comboReads o
  | .cdv o => .A :: comboReads o

/-- The cause an instruction raises, by the classification of spec/30_encoding.md R77 and spec/60_exceptions.md R171;
none where it executes normally. -/
def faultCause (i : Instr) (s : State) : Option Cause :=
  match i with
  | .jnz o =>
    if s.a = 0 then none
    else if s.mem.length ≤ o.toNat then some .jumpTargetOutOfRange
    else if o.toNat % 2 = 1 then some .jumpTargetMisaligned
    else none
  | .bxl _ => none
  | .bxc _ => none
  | .adv o => if o = 7 then some .invalidComboOperand else none
  | .bst o => if o = 7 then some .invalidComboOperand else none
  | .out o => if o = 7 then some .invalidComboOperand else none
  | .bdv o => if o = 7 then some .invalidComboOperand else none
  | .cdv o => if o = 7 then some .invalidComboOperand else none

/-- What a fault record says of the run it ended (spec/60_exceptions.md R171): `n` is the run's LEN. -/
structure FaultRecord.Fits (r : FaultRecord) (pc n : Nat) : Prop where
  atInstruction : r.fpc = pc
  inProgram     : r.fpc < n
  combo         : r.cause = .invalidComboOperand → r.fop = 7
  outOfRange    : r.cause = .jumpTargetOutOfRange → n ≤ r.fop.toNat
  misaligned    : r.cause = .jumpTargetMisaligned → r.fop.toNat < n ∧ r.fop.toNat % 2 = 1

/-- The invariant of the state (spec/10_state.md R27, R37; spec/30_encoding.md R82; spec/70_reset_and_hazards.md R207). -/
structure State.Inv (s : State) : Prop where
  canonical   : Memory.wf s.mem
  program     : Memory.holdsProgram s.mem
  unloaded    : s.loaded = false → s.mem = [] ∧ s.runLen = none
  lenEven     : ∀ n, s.runLen = some n → n % 2 = 0
  pcEven      : s.pc % 2 = 0
  pcInProgram : ∀ n, s.runLen = some n → s.pc ≤ n
  runsLoaded  : s.status = some .running → s.runLen = some s.mem.length
  earlyStop   : s.mode = .firstOut → s.out.length ≤ 1
  beforeStart : s.runLen = none → s.fault = none
  faultFits   : ∀ r n, s.fault = some r → s.runLen = some n → r.Fits s.pc n

/-- The states the host's transactions and the machine's steps lead to (spec/50_host_interface.md R150, R158). -/
inductive Reachable : State → Prop where
  | reset : Reachable State.reset
  | load {s t : State} (bound : Option Nat) (p : Program) : Reachable s → s.load bound p = .next t → Reachable t
  | start {s t : State} (a : Nat) (m : Mode) : Reachable s → s.start a m = .next t → Reachable t
  | step {s t : State} : Reachable s → step s = .next t → Reachable t

end Sys2Proof.Machine
end

