-- ==== Sys2Proof/Certificates/Slice0/Obligations.lean ====
section
/-! DEFINITION. The statements for the provers. A statement with basis "stated" formalises the numbered rules it names;
one with basis "derived" rests on the sections it names, and where a clause is a decision the spec marks as its own
(92_eei_decisions.md) or a choice of this model (a log entry), its docstring says so. -/

open Sys2Proof Sys2Proof.Machine

/-! ### The instructions: what each does, where it completes, what it leaves alone -/

/-- R110. `adv` is the cells `0, o`; for every operand but 7 it completes with A shifted right by the combo value,
`floor(A / 2 ^ v)`, and pc advanced by 2, all else unchanged; with operand 7 it records cause 1 and changes nothing else. -/
def Obligations.AdvShiftsAIntoA : Prop :=
  ∀ (s : State) (o : Digit),
    encode (.adv o) = [0, Digit.byte o] ∧
    (o ≠ 7 → ∃ v, combo s o = some v ∧
      exec (.adv o) s = .next { s with a := BitVec.ofNat 64 (s.a.toNat / 2 ^ v.toNat), pc := s.pc + 2 }) ∧
    (o = 7 → ∃ r : FaultRecord, r.cause = .invalidComboOperand ∧ exec (.adv o) s = .next { s with fault := some r })

/-- R111. `bdv` is the cells `6, o`; for every operand but 7 it completes with `floor(A / 2 ^ v)` in B and pc advanced by
2, all else unchanged; with operand 7 it records cause 1 and changes nothing else. -/
def Obligations.BdvShiftsAIntoB : Prop :=
  ∀ (s : State) (o : Digit),
    encode (.bdv o) = [6, Digit.byte o] ∧
    (o ≠ 7 → ∃ v, combo s o = some v ∧
      exec (.bdv o) s = .next { s with b := BitVec.ofNat 64 (s.a.toNat / 2 ^ v.toNat), pc := s.pc + 2 }) ∧
    (o = 7 → ∃ r : FaultRecord, r.cause = .invalidComboOperand ∧ exec (.bdv o) s = .next { s with fault := some r })

/-- R112. `cdv` is the cells `7, o`; for every operand but 7 it completes with `floor(A / 2 ^ v)` in C and pc advanced by
2, all else unchanged; with operand 7 it records cause 1 and changes nothing else. -/
def Obligations.CdvShiftsAIntoC : Prop :=
  ∀ (s : State) (o : Digit),
    encode (.cdv o) = [7, Digit.byte o] ∧
    (o ≠ 7 → ∃ v, combo s o = some v ∧
      exec (.cdv o) s = .next { s with c := BitVec.ofNat 64 (s.a.toNat / 2 ^ v.toNat), pc := s.pc + 2 }) ∧
    (o = 7 → ∃ r : FaultRecord, r.cause = .invalidComboOperand ∧ exec (.cdv o) s = .next { s with fault := some r })

/-- R120. `bxl` is the cells `1, o`; for every operand, 7 among them, it completes with B xor o (zero-extended) in B and
pc advanced by 2, all else unchanged. -/
def Obligations.BxlXorsLiteralIntoB : Prop :=
  ∀ (s : State) (o : Digit),
    encode (.bxl o) = [1, Digit.byte o] ∧
    exec (.bxl o) s = .next { s with b := s.b ^^^ BitVec.ofNat 64 o.toNat, pc := s.pc + 2 }

/-- R121. `bst` is the cells `2, o`; for every operand but 7 it completes with the combo value modulo 8 in B and pc
advanced by 2, all else unchanged; with operand 7 it records cause 1 and changes nothing else. -/
def Obligations.BstReducesComboIntoB : Prop :=
  ∀ (s : State) (o : Digit),
    encode (.bst o) = [2, Digit.byte o] ∧
    (o ≠ 7 → ∃ v, combo s o = some v ∧
      exec (.bst o) s = .next { s with b := BitVec.ofNat 64 (v.toNat % 8), pc := s.pc + 2 }) ∧
    (o = 7 → ∃ r : FaultRecord, r.cause = .invalidComboOperand ∧ exec (.bst o) s = .next { s with fault := some r })

/-- `bxc` is the cells `4, o`; for every operand it completes with B xor C in B and pc advanced by 2, all else unchanged.
That operand 7 raises nothing is the spec's own decision D27. -/
def Obligations.BxcXorsCIntoB : Prop :=
  ∀ (s : State) (o : Digit),
    encode (.bxc o) = [4, Digit.byte o] ∧
    exec (.bxc o) s = .next { s with b := s.b ^^^ s.c, pc := s.pc + 2 }

/-- R140. `out` is the cells `5, o`; for every operand but 7 it completes with the combo value modulo 8 appended at the
end of the output and pc advanced by 2, all else unchanged; with operand 7 it records cause 1 and changes nothing else. -/
def Obligations.OutAppendsLowDigit : Prop :=
  ∀ (s : State) (o : Digit),
    encode (.out o) = [5, Digit.byte o] ∧
    (o ≠ 7 → ∃ v, combo s o = some v ∧
      exec (.out o) s = .next { s with out := s.out ++ [BitVec.ofNat 3 (v.toNat % 8)], pc := s.pc + 2 }) ∧
    (o = 7 → ∃ r : FaultRecord, r.cause = .invalidComboOperand ∧ exec (.out o) s = .next { s with fault := some r })

/-- `jnz` is the cells `3, o`; it completes by falling through when A is 0, whatever its operand, and by going to the
operand when A is not 0 and the operand is an even index below LEN; any other taken target faults. What a target at or
above LEN, an odd target and an unexamined operand do are the spec's own decisions D8, D9, D10 and D13; what the record
holds is D11 and D12. -/
def Obligations.JnzFollowsItsFourBranches : Prop :=
  ∀ (s : State) (o : Digit),
    encode (.jnz o) = [3, Digit.byte o] ∧
    (s.a = 0 → exec (.jnz o) s = .next { s with pc := s.pc + 2 }) ∧
    (s.a ≠ 0 → o.toNat < s.mem.length → o.toNat % 2 = 0 → exec (.jnz o) s = .next { s with pc := o.toNat }) ∧
    (s.a ≠ 0 → s.mem.length ≤ o.toNat → exec (.jnz o) s =
      .next { s with fault := some { cause := .jumpTargetOutOfRange, fpc := s.pc, fop := o } }) ∧
    (s.a ≠ 0 → o.toNat < s.mem.length → o.toNat % 2 = 1 → exec (.jnz o) s =
      .next { s with fault := some { cause := .jumpTargetMisaligned, fpc := s.pc, fop := o } })

/-- R74. The combo operand's table: 0 to 3 are themselves, 4, 5, 6 read A, B, C in full, and 7 has no value: the five
instructions that use a combo operand raise InvalidComboOperand there. -/
def Obligations.ComboOperandTable : Prop :=
  ∀ s : State,
    combo s 0 = some 0 ∧ combo s 1 = some 1 ∧ combo s 2 = some 2 ∧ combo s 3 = some 3 ∧
    combo s 4 = some s.a ∧ combo s 5 = some s.b ∧ combo s 6 = some s.c ∧ combo s 7 = none ∧
    ∀ i ∈ [Instr.adv 7, .bst 7, .out 7, .bdv 7, .cdv 7],
      ∃ r : FaultRecord, r.cause = .invalidComboOperand ∧ exec i s = .next { s with fault := some r }

/-- R73. A literal operand is the digit zero-extended: `bxl` uses it at register width, a taken `jnz` to a valid target
as a program index. -/
def Obligations.LiteralOperandIsZeroExtended : Prop :=
  ∀ o : Digit,
    (literalWord o).toNat = o.toNat ∧ literalIndex o = o.toNat ∧ (literalWord o).toNat ≤ 7 ∧
    ∀ s : State,
      exec (.bxl o) s = .next { s with b := s.b ^^^ literalWord o, pc := s.pc + 2 } ∧
      (s.a ≠ 0 → literalIndex o < s.mem.length → literalIndex o % 2 = 0 →
        exec (.jnz o) s = .next { s with pc := literalIndex o })

/-- R95. An instruction raises InvalidComboOperand when, and only when, it is one of the five that use a combo operand
and its operand is 7; it then has no effect other than the fault record. Operand 7 never raises it in `bxl`, `jnz` or
`bxc`. -/
def Obligations.ComboSevenFaultsExactlyThere : Prop :=
  ∀ (i : Instr) (s t : State), s.fault = none → exec i s = .next t →
    ((∃ r, t.fault = some r ∧ r.cause = .invalidComboOperand) ↔
      (i = .adv 7 ∨ i = .bst 7 ∨ i = .out 7 ∨ i = .bdv 7 ∨ i = .cdv 7)) ∧
    ((i = .adv 7 ∨ i = .bst 7 ∨ i = .out 7 ∨ i = .bdv 7 ∨ i = .cdv 7) → t = { s with fault := t.fault })

/-- R26, R96. Every instruction but a taken `jnz` ends with pc advanced by 2, a taken `jnz` ends with pc at its operand,
and an instruction that faults leaves pc unchanged. -/
def Obligations.PcAfterEveryInstruction : Prop :=
  ∀ (i : Instr) (s : State), s.fault = none → ∃ t, exec i s = .next t ∧
    (t.fault = none → (∃ o, i = .jnz o ∧ s.a ≠ 0 ∧ t.pc = o.toNat) ∨
      ((∀ o, i = .jnz o → s.a = 0) ∧ t.pc = s.pc + 2)) ∧
    (t.fault ≠ none → t.pc = s.pc)

/-- Taking the exception: where the classification of faulting words gives a cause, the instruction's next state differs
in the fault record alone, which holds the cause, the instruction's index and its operand; elsewhere no fault is recorded.
The record's contents, its precision and the causes' numbers and order are the spec's own decisions D8, D9 and D11 to
D13. -/
def Obligations.FaultRecordIsPreciseAndComplete : Prop :=
  ∀ (i : Instr) (s : State),
    (∀ cause, faultCause i s = some cause →
      exec i s = .next { s with fault := some { cause := cause, fpc := s.pc, fop := i.operand } }) ∧
    (faultCause i s = none → ∃ t, exec i s = .next t ∧ t.fault = s.fault)

/-- The frame of the six instructions that write a register: no other register, no output, no mode, nothing of the
program, of LEN and of the run changes, and the fault record changes only for a combo operand 7, which writes no register
and leaves pc. -/
def Obligations.FrameOfRegisterInstructions : Prop :=
  ∀ (i : Instr) (s t : State), (∀ o, i ≠ .jnz o ∧ i ≠ .out o) → exec i s = .next t →
    (∀ r, destination i ≠ some r → t.readReg r = s.readReg r) ∧
    t.out = s.out ∧ t.mode = s.mode ∧ t.loaded = s.loaded ∧ t.runLen = s.runLen ∧ t.mem.length = s.mem.length ∧
    (∀ k, Memory.read t.mem k = Memory.read s.mem k) ∧
    (¬(i.operandKind = .combo ∧ i.operand = 7) → t.fault = s.fault) ∧
    (i.operandKind = .combo ∧ i.operand = 7 → (∀ r, t.readReg r = s.readReg r) ∧ t.pc = s.pc)

/-- The frame of `jnz`: no register, no output, no mode, nothing of the program, of LEN and of the run changes; the fault
record changes only where a taken target is at or above LEN or odd (the spec's own decisions D8 and D9), and pc then does
not change. -/
def Obligations.FrameOfJnz : Prop :=
  ∀ (o : Digit) (s t : State), exec (.jnz o) s = .next t →
    (∀ r, t.readReg r = s.readReg r) ∧
    t.out = s.out ∧ t.mode = s.mode ∧ t.loaded = s.loaded ∧ t.runLen = s.runLen ∧ t.mem.length = s.mem.length ∧
    (∀ k, Memory.read t.mem k = Memory.read s.mem k) ∧
    (t.fault ≠ s.fault → s.a ≠ 0 ∧ (s.mem.length ≤ o.toNat ∨ o.toNat % 2 = 1) ∧ t.pc = s.pc)

/-- The frame of `out`: no register, no mode, nothing of the program, of LEN and of the run changes; the earlier digits
stay where they are and at most one is added at the end; with operand 7 nothing but the fault record changes. -/
def Obligations.FrameOfOut : Prop :=
  ∀ (o : Digit) (s t : State), exec (.out o) s = .next t →
    (∀ r, t.readReg r = s.readReg r) ∧
    t.mode = s.mode ∧ t.loaded = s.loaded ∧ t.runLen = s.runLen ∧ t.mem.length = s.mem.length ∧
    (∀ k, Memory.read t.mem k = Memory.read s.mem k) ∧
    (o ≠ 7 → t.fault = s.fault ∧ ∃ d, t.out = s.out ++ [d]) ∧
    (o = 7 → t = { s with fault := t.fault })

/-- The register table of 10_state.md section 1: an instruction writes no register but its destination, and what it does
(the destination's new value, the output, pc, the fault) depends on no register but those it reads. -/
def Obligations.RegistersReadAndWrittenByTable : Prop :=
  ∀ (i : Instr) (s t : State), exec i s = .next t →
    (∀ r, destination i ≠ some r → t.readReg r = s.readReg r) ∧
    ∀ (x y z : Word) (t' : State),
      (∀ r ∈ registersRead i, ({ s with a := x, b := y, c := z } : State).readReg r = s.readReg r) →
      exec i { s with a := x, b := y, c := z } = .next t' →
      t'.pc = t.pc ∧ t'.out = t.out ∧ t'.fault = t.fault ∧
      (¬(i.operandKind = .combo ∧ i.operand = 7) → ∀ r, destination i = some r → t'.readReg r = t.readReg r)

/-- The shift function is floor division by a power of two for every count, never exceeds its argument, is a logical
shift bit by bit, is the identity for count 0 and composes. That a count at or above 64 gives 0 is the spec's own
decision D16. -/
def Obligations.ShiftIsFloorDivision : Prop :=
  ∀ a u v : Word,
    (shr a v).toNat = a.toNat / 2 ^ v.toNat ∧ (shr a v).toNat ≤ a.toNat ∧
    (∀ k, (shr a v).getLsbD k = a.getLsbD (k + v.toNat)) ∧
    shr a 0 = a ∧ (64 ≤ v.toNat → shr a v = 0) ∧
    (shr (shr a u) v).toNat = a.toNat / 2 ^ (u.toNat + v.toNat)

/-- `bxl` and `bxc` undo themselves: executed twice, each restores B; `bxl` changes no bit of B above bit 2. -/
def Obligations.XorInstructionsUndoThemselves : Prop :=
  ∀ (i : Instr) (s t u : State), ((∃ o, i = .bxl o) ∨ ∃ o, i = .bxc o) →
    exec i s = .next t → exec i t = .next u →
    u = { s with pc := s.pc + 4 } ∧ ((∃ o, i = .bxl o) → t.b.toNat / 8 = s.b.toNat / 8)

/-- MODE is read by the status function alone: no instruction reads or writes it. -/
def Obligations.ModeIsInvisibleToInstructions : Prop :=
  ∀ (i : Instr) (s t : State) (m : Mode), exec i s = .next t →
    t.mode = s.mode ∧ exec i { s with mode := m } = .next { t with mode := m }

/-! ### Encoding -/

/-- Decoding what an instruction is encoded in gives that instruction and the bytes after it, for all eight instructions
and every operand. -/
def Obligations.DecodeOfEncodeIsTheInstruction : Prop :=
  ∀ (i : Instr) (rest : List Byte), decode (encode i ++ rest) = .ok i rest

/-- The other direction: bytes that decode are the encoding of what they decode to, so each instruction has one
encoding. -/
def Obligations.EncodeOfDecodeIsTheBytes : Prop :=
  ∀ (bs rest : List Byte) (i : Instr), decode bs = .ok i rest → bs = encode i ++ rest

/-- The opcode map by match and mask (30_encoding.md section 3): each instruction's 6-bit word has its row's match value
under the mask 0x38 and its operand below it, and decodes to that instruction. -/
def Obligations.OpcodeMapByMatchAndMask : Prop :=
  ∀ (o : Digit) (row : Instr × Nat),
    row ∈ [(Instr.adv o, 0x00), (.bxl o, 0x08), (.bst o, 0x10), (.jnz o, 0x18), (.bxc o, 0x20), (.out o, 0x28),
      (.bdv o, 0x30), (.cdv o, 0x38)] →
    row.1.word &&& 0x38 = row.2 ∧ row.1.word % 8 = o.toNat ∧ decodeTableWord 8 row.1.word = some row.1

/-- The decoder is total on the 64 instruction words and one-to-one: every word below 64 is exactly one instruction. That a
table byte of 64 to 255, which is no 6-bit word, decodes to nothing is the model's choice (log 6: a byte above 7 is
rejected, and `tableCells` gives such a word a first byte above 7). -/
def Obligations.EverySixBitWordIsOneInstruction : Prop :=
  (∀ w < 64, ∃ i, decodeTableWord 8 w = some i ∧ i.word = w ∧ ∀ j : Instr, j.word = w → j = i) ∧
  ∀ w, 64 ≤ w → w < 256 → decodeTableWord 8 w = none

/-- Some words written out bit by bit from the opcode map and what they stand for (a sanity statement). -/
def Obligations.SampleWordsDecode : Prop :=
  decodeTableWord 8 0b000011 = some (.adv 3) ∧ decodeTableWord 8 0b001111 = some (.bxl 7) ∧
  decodeTableWord 8 0b010100 = some (.bst 4) ∧ decodeTableWord 8 0b011000 = some (.jnz 0) ∧
  decodeTableWord 8 0b100001 = some (.bxc 1) ∧ decodeTableWord 8 0b101100 = some (.out 4) ∧
  decodeTableWord 8 0b110101 = some (.bdv 5) ∧ decodeTableWord 8 0b111110 = some (.cdv 6)

/-- The decoder rejects by name, and only, fewer than two bytes and a byte above 7 (the model's choice, log 6: no run
meets either, since LOAD refuses ill-formed programs). -/
def Obligations.DecoderRejectsByName : Prop :=
  ∀ (bs : List Byte),
    (decode bs = .rejected .truncated ↔ bs.length < 2) ∧
    (∀ x y rest, bs = x :: y :: rest →
      (decode bs = .rejected .opcodeOutOfRange ↔ 8 ≤ x.toNat) ∧
      (decode bs = .rejected .operandOutOfRange ↔ x.toNat < 8 ∧ 8 ≤ y.toNat))

/-! ### The step -/

/-- A step runs the decoded instruction: in the status Running, where the two cells at pc decode to an instruction, the
step is that instruction's execution, with nothing added around it. -/
def Obligations.StepRunsTheDecodedInstruction : Prop :=
  ∀ (s : State) (x y : Byte) (i : Instr), s.status = some .running →
    Memory.read s.mem s.pc = some x → Memory.read s.mem (s.pc + 1) = some y → decode [x, y] = .ok i [] →
    step s = exec i s

/-- R92. The step executes exactly one of eight arms, selected by the opcode cell alone. -/
def Obligations.StepDispatchesOnTheOpcodeCell : Prop :=
  ∀ (s : State) (op o : Digit), s.status = some .running →
    Memory.read s.mem s.pc = some (Digit.byte op) → Memory.read s.mem (s.pc + 1) = some (Digit.byte o) →
    (op = 0 → step s = exec (.adv o) s) ∧ (op = 1 → step s = exec (.bxl o) s) ∧
    (op = 2 → step s = exec (.bst o) s) ∧ (op = 3 → step s = exec (.jnz o) s) ∧
    (op = 4 → step s = exec (.bxc o) s) ∧ (op = 5 → step s = exec (.out o) s) ∧
    (op = 6 → step s = exec (.bdv o) s) ∧ (op = 7 → step s = exec (.cdv o) s)

/-- The status is the function of the state that 10_state.md section 4 gives, in its priority (the spec's own decision
D23), over the LEN of the run in progress (the model's choice, log 4); before the first START there is none. -/
def Obligations.StatusByPriority : Prop :=
  ∀ s : State,
    (s.status = none ↔ s.runLen = none) ∧
    ∀ n, s.runLen = some n →
      (s.fault ≠ none → s.status = some .faulted) ∧
      (s.fault = none → s.mode = .firstOut ∧ 1 ≤ s.out.length → s.status = some .stopped) ∧
      (s.fault = none → ¬(s.mode = .firstOut ∧ 1 ≤ s.out.length) → n ≤ s.pc → s.status = some .halted) ∧
      (s.fault = none → ¬(s.mode = .firstOut ∧ 1 ≤ s.out.length) → s.pc < n → s.status = some .running)

/-- Outside Running no step changes the state: before the first START, in Halted and in Stopped the state stays, and in
Faulted the outcome is the recorded fault (that the two faces of "takes no step" are a stay and a fault outcome is the
model's choice, log 5). -/
def Obligations.NoStepOutsideRunning : Prop :=
  ∀ s : State,
    (s.status = none ∨ s.status = some .halted ∨ s.status = some .stopped → step s = .next s) ∧
    (s.status = some .faulted → ∃ r, s.fault = some r ∧ step s = .fault (.malformedProgram r.cause r.fpc r.fop))

/-- The program is immutable during a run: no step changes a cell, LEN or what is loaded, LOAD is turned away while the
machine is running, and START keeps the program, so only a LOAD of a machine that is not running replaces it. That LOAD is
turned away by a refusal of the name `runInProgress` is the model's choice (log 7): the spec gives LOAD no move there. -/
def Obligations.ProgramIsImmutableDuringARun : Prop :=
  (∀ s t : State, step s = .next t →
    t.mem = s.mem ∧ t.loaded = s.loaded ∧ ∀ k, Memory.read t.mem k = Memory.read s.mem k) ∧
  (∀ (s : State) (bound : Option Nat) (p : Program), s.status = some .running →
    s.load bound p = .refused .runInProgress) ∧
  ∀ (s t : State) (a : Nat) (m : Mode), s.start a m = .next t → t.mem = s.mem ∧ t.loaded = s.loaded

/-- A never increases, whatever a step does. -/
def Obligations.AccumulatorNeverIncreases : Prop :=
  ∀ s t : State, step s = .next t → t.a.toNat ≤ s.a.toNat

/-- The output only grows, by at most one digit a step and at its end, and a digit is added exactly by an `out` that does
not fault. -/
def Obligations.OutputOnlyGrows : Prop :=
  ∀ s t : State, step s = .next t →
    (∃ ds, t.out = s.out ++ ds ∧ ds.length ≤ 1) ∧
    (t.out ≠ s.out ↔ s.status = some .running ∧ ∃ o, o ≠ 7 ∧ fetch s = .ok (.out o))

/-- Only `cdv` changes C, only `adv` changes A, and only `bxl`, `bst`, `bxc` and `bdv` change B, of all a step can run. -/
def Obligations.OnlyTheirWritersChangeRegisters : Prop :=
  ∀ s t : State, step s = .next t →
    (t.a ≠ s.a → ∃ o, fetch s = .ok (.adv o)) ∧
    (t.c ≠ s.c → ∃ o, fetch s = .ok (.cdv o)) ∧
    (t.b ≠ s.b → ∃ o, fetch s = .ok (.bxl o) ∨ fetch s = .ok (.bst o) ∨ fetch s = .ok (.bxc o) ∨
      fetch s = .ok (.bdv o))

/-- A taken `jnz` to its own address changes nothing: the run stays Running in the same state for ever. That such a run
is a hang and not a fault is the spec's own decision D28. -/
def Obligations.JnzToItselfHangs : Prop :=
  ∀ (s : State) (o : Digit), s.status = some .running → fetch s = .ok (.jnz o) → s.pc = o.toNat → s.a ≠ 0 →
    o.toNat % 2 = 0 → o.toNat < s.mem.length →
    ∀ n, runFor n s = .next s

/-! ### The invariant -/

/-- The state before the first LOAD and START meets the invariant (the values of its registers are the model's choice,
log 1). -/
def Obligations.ResetMeetsTheInvariant : Prop := State.reset.Inv

/-- Every step keeps the invariant: memory in canonical form and holding a program, pc even and within `0 .. LEN`, at most
one digit in a FIRST_OUT run, and a fault record that fits the run. -/
def Obligations.StepKeepsTheInvariant : Prop :=
  ∀ s t : State, s.Inv → step s = .next t → t.Inv

/-- An accepted LOAD keeps the invariant. -/
def Obligations.LoadKeepsTheInvariant : Prop :=
  ∀ (s t : State) (bound : Option Nat) (p : Program), s.Inv → s.load bound p = .next t → t.Inv

/-- An accepted START keeps the invariant. -/
def Obligations.StartKeepsTheInvariant : Prop :=
  ∀ (s t : State) (a : Nat) (m : Mode), s.Inv → s.start a m = .next t → t.Inv

/-- From a state that meets the invariant a step answers a next state, or the fault that an earlier instruction recorded;
the fetch is never out of the program, and nothing is refused. That a step in Faulted has the recorded fault as its outcome
is the model's reading (log 5). -/
def Obligations.StepNeverGetsStuck : Prop :=
  ∀ s : State, s.Inv →
    (∃ t, step s = .next t) ∨
    (s.status = some .faulted ∧ ∃ r, s.fault = some r ∧ step s = .fault (.malformedProgram r.cause r.fpc r.fop))

/-- Every state the host's transactions and the machine's steps lead to meets the invariant, and in it a running machine
fetches an instruction and answers a next state. The runs begin in `State.reset`, whose per-run values are the model's
choice (log 1). -/
def Obligations.ReachableStatesAreSafe : Prop :=
  ∀ s : State, Reachable s →
    s.Inv ∧ (s.status = some .running → ∃ i t, fetch s = .ok i ∧ step s = .next t)

/-- Where the machine ends: halted at pc = LEN exactly, stopped with exactly one digit, faulted at the recorded
instruction. -/
def Obligations.WhereRunsEnd : Prop :=
  ∀ s : State, s.Inv →
    (s.status = some .halted → s.runLen = some s.pc) ∧
    (s.status = some .stopped → ∃ d, s.out = [d]) ∧
    (s.status = some .faulted → ∃ r n, s.fault = some r ∧ s.runLen = some n ∧ r.fpc = s.pc ∧ s.pc < n)

/-! ### The host interface -/

/-- LOAD: refused by name while Running, for an odd length, for a cell above 7 and above the realisation's bound, and
accepted otherwise, with no effect but the program. The names and the refusals are the spec's own decisions D7 and D30;
the order of the checks, the refusal while Running and the status after a LOAD are the model's choice (logs 4, 7). -/
def Obligations.LoadAcceptsExactlyWellFormedPrograms : Prop :=
  ∀ (s : State) (bound : Option Nat) (p : Program),
    (s.status = some .running → s.load bound p = .refused .runInProgress) ∧
    (s.status ≠ some .running → p.length % 2 = 1 → s.load bound p = .refused .oddLength) ∧
    (s.status ≠ some .running → p.length % 2 = 0 → (∃ n ∈ p, 7 < n) → s.load bound p = .refused .cellOutOfRange) ∧
    (s.status ≠ some .running → p.length % 2 = 0 → (∀ n ∈ p, n ≤ 7) → (∃ m, bound = some m ∧ m < p.length) →
      s.load bound p = .refused .programTooLong) ∧
    (s.status ≠ some .running → p.length % 2 = 0 → (∀ n ∈ p, n ≤ 7) → (∀ m, bound = some m → p.length ≤ m) →
      ∃ t, s.load bound p = .next t ∧ t = { s with mem := t.mem, loaded := true } ∧ t.mem.length = p.length ∧
        t.status = s.status ∧ ∀ k, (Memory.read t.mem k).map BitVec.toNat = p[k]?)

/-- START, the machine's one reset: refused by name while Running, before any LOAD and for a seed of more than 64 bits;
otherwise the per-run state has its reset values whatever it was, and the program is kept. That B, C and pc start at 0 and
the refusals NoProgram and SeedOutOfRange are the spec's own decisions D2, D3, D20, D23 and D29. The refusal while Running
and the order of the checks are the model's choice (log 7), and so is that the LEN of the run is kept (log 4). -/
def Obligations.StartResetsThePerRunState : Prop :=
  ∀ (s : State) (a : Nat) (m : Mode),
    (s.status = some .running → s.start a m = .refused .runInProgress) ∧
    (s.status ≠ some .running → s.loaded = false → s.start a m = .refused .noProgram) ∧
    (s.status ≠ some .running → s.loaded = true → 2 ^ 64 ≤ a → s.start a m = .refused .seedOutOfRange) ∧
    (s.status ≠ some .running → s.loaded = true → a < 2 ^ 64 →
      ∃ t, s.start a m = .next t ∧ t.a.toNat = a ∧ t.b = 0 ∧ t.c = 0 ∧ t.pc = 0 ∧ t.out = [] ∧ t.fault = none ∧
        t.mode = m ∧ t.mem = s.mem ∧ t.loaded = true ∧ t.runLen = some s.mem.length ∧
        t.status = some (if s.mem.length = 0 then .halted else .running))

/-- The result of a run depends on no earlier run: with the same program loaded, two machines that are not running give
the same results under both contracts. -/
def Obligations.RunsAreIndependentOfHistory : Prop :=
  ∀ (s s' : State) (fuel : Nat) (bound : Option Nat) (a : Nat) (p : Program),
    s.status ≠ some .running → s'.status ≠ some .running → s.loaded = s'.loaded → s.mem = s'.mem →
    execute fuel bound a p s = execute fuel bound a p s' ∧
    executeUntilFirstOutput fuel bound a p s = executeUntilFirstOutput fuel bound a p s'

/-- R155. `execute_until_first_output` returns the first digit of `execute` whenever that is non-empty, and likewise when
the full run has produced a digit and has not ended or has faulted after it. -/
def Obligations.EarlyExitReturnsTheFirstDigit : Prop :=
  (∀ (s : State) (fuel : Nat) (bound : Option Nat) (a : Nat) (p : Program) (d : Digit) (ds : List Digit),
    execute fuel bound a p s = .sequence (d :: ds) → executeUntilFirstOutput fuel bound a p s = .digit d) ∧
  ∀ (s t : State) (fuel : Nat) (bound : Option Nat) (a : Nat) (p : Program) (d : Digit) (ds : List Digit),
    runProgram fuel bound .full a p s = .next t → t.out = d :: ds →
    executeUntilFirstOutput fuel bound a p s = .digit d

/-- The results of `execute` by the run's final status: a sequence exactly when the run Halted, and it is the output; the
fault exactly when it Faulted; never a single digit and never NoOutput, since Stopped cannot occur in FULL mode. -/
def Obligations.ExecuteResultByFinalStatus : Prop :=
  ∀ (s : State) (fuel : Nat) (bound : Option Nat) (a : Nat) (p : Program),
    (∀ ds, execute fuel bound a p s = .sequence ds ↔
      ∃ t, runProgram fuel bound .full a p s = .next t ∧ t.status = some .halted ∧ t.out = ds) ∧
    (∀ r, execute fuel bound a p s = .malformed r ↔
      ∃ t, runProgram fuel bound .full a p s = .next t ∧ t.status = some .faulted ∧ t.fault = some r) ∧
    (∀ d, execute fuel bound a p s ≠ .digit d) ∧ execute fuel bound a p s ≠ .noOutput

/-- A run is repeatable: once it has ended within some fuel, more fuel gives the same result, under both contracts. -/
def Obligations.MoreFuelGivesTheSameResult : Prop :=
  ∀ (s : State) (fuel more : Nat) (bound : Option Nat) (a : Nat) (p : Program),
    (execute fuel bound a p s ≠ .unfinished → execute (fuel + more) bound a p s = execute fuel bound a p s) ∧
    (executeUntilFirstOutput fuel bound a p s ≠ .unfinished →
      executeUntilFirstOutput (fuel + more) bound a p s = executeUntilFirstOutput fuel bound a p s)

/-- There is no way out of Faulted but a new START: no step answers a next state (its outcome is the recorded fault, which
is the model's reading, log 5), a LOAD leaves the fault and the status (the status by the model's choice, log 4), and START
clears both. -/
def Obligations.OnlyStartLeavesFaulted : Prop :=
  ∀ s : State, s.status = some .faulted →
    (∀ t, step s ≠ .next t) ∧
    (∀ bound p t, s.load bound p = .next t → t.fault = s.fault ∧ t.status = some .faulted) ∧
    (∀ a m t, s.start a m = .next t → t.fault = none ∧ t.status ≠ some .faulted)

/-- RESULT gives a report exactly when a run has ended, and the report holds the state's own values. -/
def Obligations.ResultReportsEndedRuns : Prop :=
  ∀ s : State,
    (s.result = none ↔ s.status = none ∨ s.status = some .running) ∧
    ∀ rep, s.result = some rep →
      s.status = some rep.status ∧ rep.out = s.out ∧ rep.fault = s.fault ∧ rep.a = s.a ∧ rep.b = s.b ∧ rep.c = s.c ∧
      rep.pc = s.pc

/-- The listing: the digits in order, each as its one decimal character `0` to `7`, with a single comma between two digits
and nothing else, so that different outputs have different listings. That the empty output lists as the empty string and
the exact spelling are the spec's own decision D25. -/
def Obligations.ListingIsFaithful : Prop :=
  (Digit.char 0 = '0' ∧ Digit.char 1 = '1' ∧ Digit.char 2 = '2' ∧ Digit.char 3 = '3' ∧
    Digit.char 4 = '4' ∧ Digit.char 5 = '5' ∧ Digit.char 6 = '6' ∧ Digit.char 7 = '7') ∧
  listing [] = "" ∧
  (∀ ds : List Digit,
    (listing ds).toList.length = 2 * ds.length - 1 ∧
    (∀ (k : Nat) (h : k < ds.length), (listing ds).toList[2 * k]? = some (Digit.char ds[k])) ∧
    (∀ k, k + 1 < ds.length → (listing ds).toList[2 * k + 1]? = some ',')) ∧
  ∀ ds es : List Digit, listing ds = listing es → ds = es

/-- The results of `execute_until_first_output` by the run's final status: the digit exactly when the run Stopped, and it
is the one digit of the output; NoOutput exactly when it Halted, and the output is then empty (the spec's own decision
D15); the fault exactly when it Faulted; never a sequence. A run still in progress when the fuel ends has no result, which
the model calls `unfinished` (log 8). -/
def Obligations.EarlyExitResultByFinalStatus : Prop :=
  ∀ (s : State) (fuel : Nat) (bound : Option Nat) (a : Nat) (p : Program),
    (∀ d, executeUntilFirstOutput fuel bound a p s = .digit d ↔
      ∃ t, runProgram fuel bound .firstOut a p s = .next t ∧ t.status = some .stopped ∧ t.out = [d]) ∧
    (executeUntilFirstOutput fuel bound a p s = .noOutput ↔
      ∃ t, runProgram fuel bound .firstOut a p s = .next t ∧ t.status = some .halted ∧ t.out = []) ∧
    (∀ r, executeUntilFirstOutput fuel bound a p s = .malformed r ↔
      ∃ t, runProgram fuel bound .firstOut a p s = .next t ∧ t.status = some .faulted ∧ t.fault = some r) ∧
    (executeUntilFirstOutput fuel bound a p s = .unfinished ↔
      ∃ t, runProgram fuel bound .firstOut a p s = .next t ∧ t.status = some .running) ∧
    ∀ ds, executeUntilFirstOutput fuel bound a p s ≠ .sequence ds
end

