-- ==== Sys2Proof/Laws/Decode.lean ====
section
/-! SUPPORT. Small lemmas about digits, bytes and the two directions of the opcode map. -/

namespace Sys2Proof

theorem digit_byte (d : Digit) : Byte.digit (Digit.byte d) = some d := by
  revert d
  decide

theorem byte_of_digit {x : Byte} {d : Digit} (h : Byte.digit x = some d) : x = Digit.byte d := by
  revert x d
  decide

theorem digit_eq_none_iff {x : Byte} : Byte.digit x = none ↔ 8 ≤ x.toNat := by
  unfold Byte.digit
  split <;> simp <;> omega

/-- A byte below 8 holds a digit. -/
theorem digit_of_lt {x : Byte} (h : x.toNat < 8) : ∃ d, Byte.digit x = some d := by
  exact ⟨_, if_pos h⟩

theorem ofDigits_opcode_operand (i : Instr) : Instr.ofDigits i.opcode i.operand = i := by
  cases i with
  | adv o => revert o; decide
  | bxl o => revert o; decide
  | bst o => revert o; decide
  | jnz o => revert o; decide
  | bxc o => revert o; decide
  | out o => revert o; decide
  | bdv o => revert o; decide
  | cdv o => revert o; decide

theorem operand_ofDigits (op o : Digit) : (Instr.ofDigits op o).operand = o := by
  revert op o
  decide

theorem opcode_ofDigits (op o : Digit) : (Instr.ofDigits op o).opcode = op := by
  revert op o
  decide

/-- Decoding two digit cells. -/
theorem decode_digits {x y : Byte} {op o : Digit} (hx : Byte.digit x = some op) (hy : Byte.digit y = some o)
    (rest : List Byte) : decode (x :: y :: rest) = .ok (Instr.ofDigits op o) rest := by
  simp [decode, hx, hy]

/-- What a decoding that succeeds says of the bytes. -/
theorem decode_ok_cases {bs rest : List Byte} {i : Instr} (h : decode bs = .ok i rest) :
    ∃ x y op o, bs = x :: y :: rest ∧ Byte.digit x = some op ∧ Byte.digit y = some o ∧ i = Instr.ofDigits op o := by
  match bs, h with
  | [], h => simp [decode] at h
  | [_], h => simp [decode] at h
  | x :: y :: tail, h =>
    simp only [decode] at h
    split at h
    · next op o hx hy =>
      simp only [Decoded.ok.injEq] at h
      exact ⟨x, y, op, o, by rw [h.2], hx, hy, h.1.symm⟩
    · simp at h
    · simp at h

end Sys2Proof
end

