-- ==== Sys2Proof/Laws/Memory.lean ====
section
/-! SUPPORT. Program memory: every operation keeps the canonical form, and what a read of a canonical memory gives. -/

namespace Sys2Proof.Machine

@[simp] theorem place_length (base : Nat) (xs : List Byte) : (Memory.place base xs).length = xs.length := by
  induction xs generalizing base with
  | nil => rfl
  | cons x xs ih => simp [Memory.place, ih]

@[simp] theorem place_bytes (base : Nat) (xs : List Byte) : (Memory.place base xs).map Prod.snd = xs := by
  induction xs generalizing base with
  | nil => rfl
  | cons x xs ih => simp [Memory.place, ih]

theorem place_indices (base : Nat) (xs : List Byte) :
    (Memory.place base xs).map Prod.fst = List.range' base xs.length := by
  induction xs generalizing base with
  | nil => rfl
  | cons x xs ih => simp [Memory.place, ih, List.range'_succ]

/-- Placed from index 0, bytes are in canonical form. -/
theorem place_wf (xs : List Byte) : Memory.wf (Memory.place 0 xs) := by
  simp [Memory.wf, place_indices, List.range_eq_range']

/-- LOAD's memory is in canonical form. -/
theorem ofProgram_wf (p : Program) : Memory.wf (Memory.ofProgram p) := place_wf _

/-- `withFetchWord`'s memory is in canonical form. -/
theorem patch_wf (m : Memory) (i : Nat) (xs : List Byte) : Memory.wf (Memory.patch m i xs) := place_wf _

/-- The memory before the first LOAD is in canonical form. -/
theorem reset_wf : Memory.wf State.reset.mem := rfl

/-- The canonical form lists indices strictly rising. -/
theorem wf_rising {m : Memory} (h : Memory.wf m) : m.Pairwise fun x y => x.1 < y.1 := by
  have hr : (m.map Prod.fst).Pairwise (· < ·) := by
    rw [h]
    exact List.pairwise_lt_range
  exact List.pairwise_map.mp hr

/-- Equal contents are equal data: a canonical memory is the placement of its own bytes. -/
theorem wf_eq_place {m : Memory} (h : Memory.wf m) : m = Memory.place 0 (m.map Prod.snd) := by
  have key : ∀ (base : Nat) (m : Memory), m.map Prod.fst = List.range' base m.length →
      m = Memory.place base (m.map Prod.snd) := by
    intro base m
    induction m generalizing base with
    | nil => intro _; rfl
    | cons c m ih =>
      intro hm
      simp only [List.map_cons, List.length_cons, List.range'_succ, List.cons.injEq] at hm
      obtain ⟨hbase, hm⟩ := hm
      simp only [List.map_cons, Memory.place]
      rw [← ih (base + 1) hm, ← hbase]
  exact key 0 m (by rw [h, List.range_eq_range'])

theorem read_place (base : Nat) (xs : List Byte) (i : Nat) :
    Memory.read (Memory.place base xs) i = if base ≤ i then xs[i - base]? else none := by
  induction xs generalizing base with
  | nil => simp [Memory.place, Memory.read]
  | cons x xs ih =>
    simp only [Memory.place, Memory.read, ih]
    rcases Nat.lt_trichotomy base i with h | h | h
    · have e : i - base = i - (base + 1) + 1 := by omega
      rw [if_neg (by omega), if_pos (by omega), if_pos (by omega), e, List.getElem?_cons_succ]
    · subst h
      simp
    · rw [if_neg (by omega), if_neg (by omega), if_neg (by omega)]

/-- Reading a canonical memory: the cell's byte inside the program, nothing at or above LEN. -/
theorem read_of_wf {m : Memory} (h : Memory.wf m) (i : Nat) : Memory.read m i = (m.map Prod.snd)[i]? := by
  rw [wf_eq_place h, read_place]
  simp

theorem read_ofProgram (p : Program) (i : Nat) : Memory.read (Memory.ofProgram p) i = p[i]?.map (BitVec.ofNat 8) := by
  rw [Memory.ofProgram, read_place]
  simp

@[simp] theorem ofProgram_length (p : Program) : (Memory.ofProgram p).length = p.length := by
  simp [Memory.ofProgram]

/-- A well-formed program is read back from the memory it is loaded into. -/
theorem program_ofProgram {p : Program} (h : p.wellFormed) : Memory.program (Memory.ofProgram p) = p := by
  have hr : ∀ n ∈ p, n < 8 := by
    simp only [Program.wellFormed, Program.cellsInRange, Bool.and_eq_true, List.all_eq_true, decide_eq_true_eq] at h
    exact h.2
  have hm : Memory.program (Memory.ofProgram p) = ((Memory.ofProgram p).map Prod.snd).map BitVec.toNat := by
    simp [Memory.program, List.map_map, Function.comp_def]
  rw [hm, Memory.ofProgram, place_bytes, List.map_map]
  conv_rhs => rw [← List.map_id p]
  refine List.map_congr_left fun n hn => ?_
  have := hr n hn
  simp only [Function.comp_apply, BitVec.toNat_ofNat, id_eq]
  omega

/-- LOAD of a well-formed program leaves a memory that holds a program. -/
theorem holdsProgram_ofProgram {p : Program} (h : p.wellFormed) : Memory.holdsProgram (Memory.ofProgram p) := by
  have hp := program_ofProgram h
  simp only [Program.wellFormed, Program.evenLength, Program.cellsInRange, Bool.and_eq_true, beq_iff_eq,
    List.all_eq_true, decide_eq_true_eq] at h
  refine ⟨by simpa using h.1, fun c hc => h.2 _ ?_⟩
  rw [← hp]
  exact List.mem_map.mpr ⟨c, hc, rfl⟩

/-- The cells `withFetchWord` writes read back. -/
theorem read_patch_written (m : Memory) (i : Nat) (xs : List Byte) (k : Nat) (hk : k < xs.length) :
    Memory.read (Memory.patch m i xs) (i + k) = xs[k]? := by
  simp only [Memory.patch, read_place, Nat.zero_le, if_true, Nat.sub_zero]
  rw [List.getElem?_append_left (by simp; omega), List.getElem?_append_right (by simp; omega)]
  congr 1
  simp
  omega

/-- Every cell the memory had outside the written indices reads as before. -/
theorem read_patch_outside {m : Memory} (h : Memory.wf m) (i : Nat) (xs : List Byte) (j : Nat)
    (hj : j < m.length) (ho : j < i ∨ i + xs.length ≤ j) :
    Memory.read (Memory.patch m i xs) j = Memory.read m j := by
  rw [read_of_wf h]
  simp only [Memory.patch, read_place, Nat.zero_le, if_true, Nat.sub_zero]
  rcases ho with ho | ho
  · rw [List.getElem?_append_left (by simp; omega), List.getElem?_append_left (by simp; omega),
      List.getElem?_append_left (by simp; omega), List.getElem?_take_of_lt ho]
  · rw [List.getElem?_append_right (by simp; omega), List.getElem?_drop]
    congr 1
    simp
    omega

end Sys2Proof.Machine
end

