-- ==== Sys2Proof/Laws/State.lean ====
section
/-! SUPPORT. One lemma per field per update, so that no later proof unfolds a record update. -/

namespace Sys2Proof.Machine

section readWrite
variable (s : State) (r q : Reg) (v : Word)

@[simp] theorem readReg_A : s.readReg .A = s.a := rfl
@[simp] theorem readReg_B : s.readReg .B = s.b := rfl
@[simp] theorem readReg_C : s.readReg .C = s.c := rfl

@[simp] theorem writeReg_A : s.writeReg .A v = { s with a := v } := rfl
@[simp] theorem writeReg_B : s.writeReg .B v = { s with b := v } := rfl
@[simp] theorem writeReg_C : s.writeReg .C v = { s with c := v } := rfl

@[simp] theorem readReg_writeReg_self : (s.writeReg r v).readReg r = v := by cases r <;> rfl

theorem readReg_writeReg_of_ne (h : q ≠ r) : (s.writeReg r v).readReg q = s.readReg q := by
  cases r <;> cases q <;> first | rfl | exact absurd rfl h

@[simp] theorem writeReg_pc : (s.writeReg r v).pc = s.pc := by cases r <;> rfl
@[simp] theorem writeReg_out : (s.writeReg r v).out = s.out := by cases r <;> rfl
@[simp] theorem writeReg_fault : (s.writeReg r v).fault = s.fault := by cases r <;> rfl
@[simp] theorem writeReg_mode : (s.writeReg r v).mode = s.mode := by cases r <;> rfl
@[simp] theorem writeReg_mem : (s.writeReg r v).mem = s.mem := by cases r <;> rfl
@[simp] theorem writeReg_loaded : (s.writeReg r v).loaded = s.loaded := by cases r <;> rfl
@[simp] theorem writeReg_runLen : (s.writeReg r v).runLen = s.runLen := by cases r <;> rfl

end readWrite

section advance
variable (s : State)

@[simp] theorem advance_a : s.advance.a = s.a := rfl
@[simp] theorem advance_b : s.advance.b = s.b := rfl
@[simp] theorem advance_c : s.advance.c = s.c := rfl
@[simp] theorem advance_readReg (r : Reg) : s.advance.readReg r = s.readReg r := by cases r <;> rfl
@[simp] theorem advance_pc : s.advance.pc = s.pc + 2 := rfl
@[simp] theorem advance_out : s.advance.out = s.out := rfl
@[simp] theorem advance_fault : s.advance.fault = s.fault := rfl
@[simp] theorem advance_mode : s.advance.mode = s.mode := rfl
@[simp] theorem advance_mem : s.advance.mem = s.mem := rfl
@[simp] theorem advance_loaded : s.advance.loaded = s.loaded := rfl
@[simp] theorem advance_runLen : s.advance.runLen = s.runLen := rfl

end advance

section outAppend
variable (s : State) (d : Digit)

@[simp] theorem outAppend_a : (s.outAppend d).a = s.a := rfl
@[simp] theorem outAppend_b : (s.outAppend d).b = s.b := rfl
@[simp] theorem outAppend_c : (s.outAppend d).c = s.c := rfl
@[simp] theorem outAppend_readReg (r : Reg) : (s.outAppend d).readReg r = s.readReg r := by cases r <;> rfl
@[simp] theorem outAppend_pc : (s.outAppend d).pc = s.pc := rfl
@[simp] theorem outAppend_out : (s.outAppend d).out = s.out ++ [d] := rfl
@[simp] theorem outAppend_fault : (s.outAppend d).fault = s.fault := rfl
@[simp] theorem outAppend_mode : (s.outAppend d).mode = s.mode := rfl
@[simp] theorem outAppend_mem : (s.outAppend d).mem = s.mem := rfl
@[simp] theorem outAppend_loaded : (s.outAppend d).loaded = s.loaded := rfl
@[simp] theorem outAppend_runLen : (s.outAppend d).runLen = s.runLen := rfl

end outAppend

/-- Two states with the same fields are the same. -/
theorem State.ext_fields {s t : State} (ha : s.a = t.a) (hb : s.b = t.b) (hc : s.c = t.c) (hpc : s.pc = t.pc)
    (hout : s.out = t.out) (hfault : s.fault = t.fault) (hmode : s.mode = t.mode) (hmem : s.mem = t.mem)
    (hloaded : s.loaded = t.loaded) (hrun : s.runLen = t.runLen) : s = t := by
  cases s; cases t; simp_all

end Sys2Proof.Machine
end

