-- ==== Sys2Proof/Laws/Ops.lean ====
section
/-! SUPPORT. One lemma per shared operation, saying once everything it can do. -/

namespace Sys2Proof.Machine

/-- `combo` has no value exactly for operand 7. -/
theorem combo_eq_none_iff {s : State} {o : Digit} : combo s o = none ↔ o = 7 := by
  have key : ∀ o : Digit, o.toNat = 7 ↔ o = 7 := by decide
  rw [← key o]
  unfold combo
  split <;> simp_all only [reduceCtorEq, false_iff] <;> omega

theorem combo_seven (s : State) : combo s 7 = none := rfl

theorem combo_isSome {s : State} {o : Digit} (h : o ≠ 7) : ∃ v, combo s o = some v := by
  cases hc : combo s o with
  | some v => exact ⟨v, rfl⟩
  | none => exact absurd (combo_eq_none_iff.mp hc) h

/-- `combo` depends on the registers alone. -/
theorem combo_congr {s t : State} (ha : s.a = t.a) (hb : s.b = t.b) (hc : s.c = t.c) (o : Digit) :
    combo s o = combo t o := by
  unfold combo
  simp [ha, hb, hc]

/-- The state a raise leaves. -/
def raised (cause : Cause) (o : Digit) (s : State) : State :=
  { s with fault := some { cause := cause, fpc := s.pc, fop := o } }

@[simp] theorem raise_eq (cause : Cause) (o : Digit) (s : State) : raise cause o s = .next (raised cause o s) := rfl

section raised
variable (cause : Cause) (o : Digit) (s : State)

@[simp] theorem raised_a : (raised cause o s).a = s.a := rfl
@[simp] theorem raised_b : (raised cause o s).b = s.b := rfl
@[simp] theorem raised_c : (raised cause o s).c = s.c := rfl
@[simp] theorem raised_pc : (raised cause o s).pc = s.pc := rfl
@[simp] theorem raised_out : (raised cause o s).out = s.out := rfl
@[simp] theorem raised_fault : (raised cause o s).fault = some { cause := cause, fpc := s.pc, fop := o } := rfl
@[simp] theorem raised_mode : (raised cause o s).mode = s.mode := rfl
@[simp] theorem raised_mem : (raised cause o s).mem = s.mem := rfl
@[simp] theorem raised_loaded : (raised cause o s).loaded = s.loaded := rfl
@[simp] theorem raised_runLen : (raised cause o s).runLen = s.runLen := rfl

end raised

theorem withCombo_value {s : State} {o : Digit} {v : Word} (h : combo s o = some v) (effect : Word → State) :
    withCombo o s effect = .next (effect v).advance := by
  simp [withCombo, h]

theorem withCombo_seven (s : State) (effect : Word → State) :
    withCombo 7 s effect = .next (raised .invalidComboOperand 7 s) := rfl

/-- Everything an instruction over a combo operand can do. -/
theorem withCombo_cases {o : Digit} {s t : State} {effect : Word → State} (h : withCombo o s effect = .next t) :
    (∃ v, o ≠ 7 ∧ combo s o = some v ∧ t = (effect v).advance) ∨
      (o = 7 ∧ t = raised .invalidComboOperand 7 s) := by
  by_cases h7 : o = 7
  · subst h7
    rw [withCombo_seven, Host.Outcome.next.injEq] at h
    exact .inr ⟨rfl, h.symm⟩
  · obtain ⟨v, hv⟩ := combo_isSome (s := s) h7
    rw [withCombo_value hv, Host.Outcome.next.injEq] at h
    exact .inl ⟨v, h7, hv, h.symm⟩

/-- Everything a taken jump can do. -/
theorem jumpTo_cases {o : Digit} {s t : State} (h : jumpTo o s = .next t) :
    (s.mem.length ≤ o.toNat ∧ t = raised .jumpTargetOutOfRange o s) ∨
      (o.toNat < s.mem.length ∧ o.toNat % 2 = 1 ∧ t = raised .jumpTargetMisaligned o s) ∨
      (o.toNat < s.mem.length ∧ o.toNat % 2 = 0 ∧ t = { s with pc := o.toNat }) := by
  unfold jumpTo literalIndex at h
  split at h
  · next hl => exact .inl ⟨hl, by simpa using h.symm⟩
  · next hl =>
    split at h
    · next ho => exact .inr (.inl ⟨by omega, ho, by simpa using h.symm⟩)
    · next ho => exact .inr (.inr ⟨by omega, by omega, by simpa using h.symm⟩)

@[simp] theorem jumpTaken_iff (s : State) : s.jumpTaken = true ↔ s.a ≠ 0 := by
  simp [State.jumpTaken]

/-- The status is Running exactly under the conditions of spec/40_step_and_operands.md R90. -/
theorem status_running_iff {s : State} :
    s.status = some .running ↔
      ∃ n, s.runLen = some n ∧ s.fault = none ∧ ¬(s.mode = .firstOut ∧ 1 ≤ s.out.length) ∧ s.pc < n := by
  unfold State.status State.runStatus
  cases hr : s.runLen with
  | none => simp
  | some n =>
    cases hf : s.fault with
    | some r => simp
    | none =>
      simp only [Option.map_some, Option.isSome_none, Bool.false_eq_true, if_false, Option.some.injEq]
      split
      · simp_all
      · split
        · simp_all
        · simp_all

theorem status_halted_iff {s : State} :
    s.status = some .halted ↔
      ∃ n, s.runLen = some n ∧ s.fault = none ∧ ¬(s.mode = .firstOut ∧ 1 ≤ s.out.length) ∧ n ≤ s.pc := by
  unfold State.status State.runStatus
  cases hr : s.runLen with
  | none => simp
  | some n =>
    cases hf : s.fault with
    | some r => simp
    | none =>
      simp only [Option.map_some, Option.isSome_none, Bool.false_eq_true, if_false, Option.some.injEq]
      split
      · simp_all
      · split <;> simp_all

theorem status_stopped_iff {s : State} :
    s.status = some .stopped ↔
      (∃ n, s.runLen = some n) ∧ s.fault = none ∧ s.mode = .firstOut ∧ 1 ≤ s.out.length := by
  unfold State.status State.runStatus
  cases hr : s.runLen with
  | none => simp
  | some n =>
    cases hf : s.fault with
    | some r => simp
    | none =>
      simp only [Option.map_some, Option.isSome_none, Bool.false_eq_true, if_false, Option.some.injEq]
      split
      · simp_all
      · split <;> simp_all

theorem status_faulted_iff {s : State} :
    s.status = some .faulted ↔ (∃ n, s.runLen = some n) ∧ ∃ r, s.fault = some r := by
  unfold State.status State.runStatus
  cases hr : s.runLen with
  | none => simp
  | some n =>
    cases hf : s.fault with
    | some r => simp
    | none =>
      simp only [Option.map_some, Option.isSome_none, Bool.false_eq_true, if_false, Option.some.injEq]
      split
      · simp_all
      · split <;> simp_all

/-- The fetch of two digit cells. -/
theorem fetch_digits {s : State} {op o : Digit} (hx : Memory.read s.mem s.pc = some (Digit.byte op))
    (hy : Memory.read s.mem (s.pc + 1) = some (Digit.byte o)) : fetch s = .ok (Instr.ofDigits op o) := by
  simp [fetch, hx, hy, decode_digits (digit_byte op) (digit_byte o)]

/-- What a fetch that succeeds says of program memory. -/
theorem fetch_ok_cases {s : State} {i : Instr} (h : fetch s = .ok i) :
    Memory.read s.mem s.pc = some (Digit.byte i.opcode) ∧
      Memory.read s.mem (s.pc + 1) = some (Digit.byte i.operand) := by
  unfold fetch at h
  split at h
  · next x y hx hy =>
    split at h
    · next j rest hd =>
      obtain ⟨x', y', op, o, hb, hop, ho, rfl⟩ := decode_ok_cases hd
      simp only [List.cons.injEq] at hb
      obtain ⟨rfl, rfl, -⟩ := hb
      cases h
      rw [opcode_ofDigits, operand_ofDigits, hx, hy, byte_of_digit hop, byte_of_digit ho]
      exact ⟨rfl, rfl⟩
    · cases h
    · cases h
  · cases h
  · cases h

/-- The fetch succeeds inside a program. -/
theorem fetch_in_program {s : State} (hw : Memory.wf s.mem) (hp : Memory.holdsProgram s.mem) (h : s.pc + 1 < s.mem.length) :
    ∃ i, fetch s = .ok i := by
  have cell : ∀ i, i < s.mem.length → ∃ d, Memory.read s.mem i = some (Digit.byte d) := by
    intro i hi
    have hlt := hp.2 (s.mem[i]) (List.getElem_mem hi)
    obtain ⟨d, hd⟩ := digit_of_lt hlt
    refine ⟨d, ?_⟩
    rw [read_of_wf hw, List.getElem?_map, List.getElem?_eq_getElem hi, ← byte_of_digit hd]
    rfl
  obtain ⟨op, hop⟩ := cell s.pc (by omega)
  obtain ⟨o, ho⟩ := cell (s.pc + 1) h
  exact ⟨_, fetch_digits hop ho⟩

end Sys2Proof.Machine
end

