-- ==== Sys2Proof/Laws/PerInstr.lean ====
section
/-! SUPPORT. A statement about every instruction as syntax, one lemma per constructor. -/

/-- An instruction is encoded in two cells, each a byte below 8, the opcode cell first (spec/30_encoding.md R70). -/
def Sys2Proof.Laws.TwoCells.Statement (i : Sys2Proof.Instr) : Prop :=
  ∃ x y : Sys2Proof.Byte, Sys2Proof.encode i = [x, y] ∧ x.toNat = i.opcode.toNat ∧ y.toNat = i.operand.toNat ∧
    x.toNat < 8 ∧ y.toNat < 8

/-- What every constructor's lemma cites: a digit's byte holds the digit's value. -/
theorem Sys2Proof.Laws.byte_value (d : Sys2Proof.Digit) :
    (Sys2Proof.Digit.byte d).toNat = d.toNat ∧ (Sys2Proof.Digit.byte d).toNat < 8 := by
  revert d
  decide

/-- The shared step of the lemmas below. -/
theorem Sys2Proof.Laws.twoCells_of_digits (i : Sys2Proof.Instr) : Sys2Proof.Laws.TwoCells.Statement i :=
  ⟨_, _, rfl, (Sys2Proof.Laws.byte_value _).1, (Sys2Proof.Laws.byte_value _).1, (Sys2Proof.Laws.byte_value _).2,
    (Sys2Proof.Laws.byte_value _).2⟩

theorem Sys2Proof.Laws.TwoCells.adv (o : Sys2Proof.Digit) : Sys2Proof.Laws.TwoCells.Statement (.adv o) :=
  Sys2Proof.Laws.twoCells_of_digits _

theorem Sys2Proof.Laws.TwoCells.bxl (o : Sys2Proof.Digit) : Sys2Proof.Laws.TwoCells.Statement (.bxl o) :=
  Sys2Proof.Laws.twoCells_of_digits _

theorem Sys2Proof.Laws.TwoCells.bst (o : Sys2Proof.Digit) : Sys2Proof.Laws.TwoCells.Statement (.bst o) :=
  Sys2Proof.Laws.twoCells_of_digits _

theorem Sys2Proof.Laws.TwoCells.jnz (o : Sys2Proof.Digit) : Sys2Proof.Laws.TwoCells.Statement (.jnz o) :=
  Sys2Proof.Laws.twoCells_of_digits _

theorem Sys2Proof.Laws.TwoCells.bxc (o : Sys2Proof.Digit) : Sys2Proof.Laws.TwoCells.Statement (.bxc o) :=
  Sys2Proof.Laws.twoCells_of_digits _

theorem Sys2Proof.Laws.TwoCells.out (o : Sys2Proof.Digit) : Sys2Proof.Laws.TwoCells.Statement (.out o) :=
  Sys2Proof.Laws.twoCells_of_digits _

theorem Sys2Proof.Laws.TwoCells.bdv (o : Sys2Proof.Digit) : Sys2Proof.Laws.TwoCells.Statement (.bdv o) :=
  Sys2Proof.Laws.twoCells_of_digits _

theorem Sys2Proof.Laws.TwoCells.cdv (o : Sys2Proof.Digit) : Sys2Proof.Laws.TwoCells.Statement (.cdv o) :=
  Sys2Proof.Laws.twoCells_of_digits _
end

