-- ==== Sys2Proof/Laws/Step.lean ====
section
/-! SUPPORT. What an instruction and a step can do, said once. -/

namespace Sys2Proof.Machine

/-- What an instruction does to a state, one constructor per case of the spec's pseudocode: the effect where it raises
nothing, and the record where it raises. -/
inductive Effect (s : State) : Instr → State → Prop where
  | adv {o v} : o ≠ 7 → combo s o = some v → Effect s (.adv o) { s with a := shr s.a v, pc := s.pc + 2 }
  | bxl {o} : Effect s (.bxl o) { s with b := s.b ^^^ literalWord o, pc := s.pc + 2 }
  | bst {o v} : o ≠ 7 → combo s o = some v →
      Effect s (.bst o) { s with b := (low3 v).setWidth 64, pc := s.pc + 2 }
  | notTaken {o} : s.a = 0 → Effect s (.jnz o) { s with pc := s.pc + 2 }
  | taken {o} : s.a ≠ 0 → o.toNat < s.mem.length → o.toNat % 2 = 0 → Effect s (.jnz o) { s with pc := o.toNat }
  | bxc {o} : Effect s (.bxc o) { s with b := s.b ^^^ s.c, pc := s.pc + 2 }
  | out {o v} : o ≠ 7 → combo s o = some v →
      Effect s (.out o) { s with out := s.out ++ [low3 v], pc := s.pc + 2 }
  | bdv {o v} : o ≠ 7 → combo s o = some v → Effect s (.bdv o) { s with b := shr s.a v, pc := s.pc + 2 }
  | cdv {o v} : o ≠ 7 → combo s o = some v → Effect s (.cdv o) { s with c := shr s.a v, pc := s.pc + 2 }
  | combo7 {i} : i.operandKind = .combo → i.operand = 7 → Effect s i (raised .invalidComboOperand 7 s)
  | outOfRange {o} : s.a ≠ 0 → s.mem.length ≤ o.toNat → Effect s (.jnz o) (raised .jumpTargetOutOfRange o s)
  | misaligned {o} : s.a ≠ 0 → o.toNat < s.mem.length → o.toNat % 2 = 1 →
      Effect s (.jnz o) (raised .jumpTargetMisaligned o s)

/-- Everything `exec` can do. -/
theorem exec_effect {i : Instr} {s t : State} (h : exec i s = .next t) : Effect s i t := by
  cases i with
  | adv o =>
    obtain ⟨v, h7, hv, rfl⟩ | ⟨rfl, rfl⟩ := withCombo_cases h
    · exact .adv h7 hv
    · exact .combo7 rfl rfl
  | bxl o =>
    cases h
    exact .bxl
  | bst o =>
    obtain ⟨v, h7, hv, rfl⟩ | ⟨rfl, rfl⟩ := withCombo_cases h
    · exact .bst h7 hv
    · exact .combo7 rfl rfl
  | jnz o =>
    simp only [exec, execJnz] at h
    split at h
    · next ht =>
      have ha := (jumpTaken_iff s).mp ht
      obtain ⟨hl, rfl⟩ | ⟨hl, ho, rfl⟩ | ⟨hl, ho, rfl⟩ := jumpTo_cases h
      · exact .outOfRange ha hl
      · exact .misaligned ha hl ho
      · exact .taken ha hl ho
    · next ht =>
      cases h
      exact .notTaken (by simpa using ht)
  | bxc o =>
    cases h
    exact .bxc
  | out o =>
    obtain ⟨v, h7, hv, rfl⟩ | ⟨rfl, rfl⟩ := withCombo_cases h
    · exact .out h7 hv
    · exact .combo7 rfl rfl
  | bdv o =>
    obtain ⟨v, h7, hv, rfl⟩ | ⟨rfl, rfl⟩ := withCombo_cases h
    · exact .bdv h7 hv
    · exact .combo7 rfl rfl
  | cdv o =>
    obtain ⟨v, h7, hv, rfl⟩ | ⟨rfl, rfl⟩ := withCombo_cases h
    · exact .cdv h7 hv
    · exact .combo7 rfl rfl

/-- An instruction always answers a next state: a raise is one too. -/
theorem exec_next (i : Instr) (s : State) : ∃ t, exec i s = .next t := by
  have viaCombo : ∀ (o : Digit) (effect : Word → State), ∃ t, withCombo o s effect = .next t := by
    intro o effect
    unfold withCombo
    split <;> exact ⟨_, rfl⟩
  cases i with
  | adv o => exact viaCombo o _
  | bxl o => exact ⟨_, rfl⟩
  | bst o => exact viaCombo o _
  | jnz o =>
    simp only [exec, execJnz, jumpTo]
    split
    · split
      · exact ⟨_, rfl⟩
      · split <;> exact ⟨_, rfl⟩
    · exact ⟨_, rfl⟩
  | bxc o => exact ⟨_, rfl⟩
  | out o => exact viaCombo o _
  | bdv o => exact viaCombo o _
  | cdv o => exact viaCombo o _

/-- Everything a step that answers a next state can be. -/
theorem step_cases {s t : State} (h : step s = .next t) :
    (s.status = some .running ∧ ∃ i, fetch s = .ok i ∧ exec i s = .next t) ∨
      (s.status ≠ some .running ∧ t = s) := by
  unfold step at h
  split at h
  · next hs =>
    split at h
    · next i hi => exact .inl ⟨hs, i, hi, h⟩
    · cases h
  · next hs =>
    obtain ⟨-, r, hr⟩ := status_faulted_iff.mp hs
    simp [reportFault, hr] at h
  all_goals
    next hs =>
    cases h
    exact .inr ⟨by simp [hs], rfl⟩

/-- A step in the status Running is the fetched instruction. -/
theorem step_running {s : State} {i : Instr} (hs : s.status = some .running) (hf : fetch s = .ok i) :
    step s = exec i s := by
  simp [step, hs, hf]

/-- The state `withFetchWord` gives is Running. -/
theorem withFetchWord_running (s : State) (nbits w : Nat) : (s.withFetchWord nbits w).status = some .running := by
  rw [status_running_iff]
  refine ⟨_, rfl, rfl, ?_, ?_⟩
  · simp only [State.withFetchWord, not_and]
    cases s.out <;> simp
  · simp only [State.withFetchWord, Memory.patch, tableCells, place_length]
    simp only [List.length_append, List.length_take, List.length_map, List.length_replicate, List.length_drop,
      List.length_cons, List.length_nil]
    omega

/-- The next step of `withFetchWord` runs exactly the instruction the decoder reads from the table word. -/
theorem step_withFetchWord {s : State} {nbits w : Nat} {i : Instr} (h : decodeTableWord nbits w = some i) :
    step (s.withFetchWord nbits w) = exec i (s.withFetchWord nbits w) := by
  have hr := withFetchWord_running s nbits w
  refine step_running hr ?_
  have h0 := read_patch_written s.mem s.pc (tableCells nbits w) 0 (by simp [tableCells])
  have h1 := read_patch_written s.mem s.pc (tableCells nbits w) 1 (by simp [tableCells])
  unfold decodeTableWord at h
  split at h
  · next j rest hd =>
    cases h
    obtain ⟨x, y, op, o, hb, hop, ho, rfl⟩ := decode_ok_cases hd
    rw [hb] at h0 h1
    have hx : Memory.read (s.withFetchWord nbits w).mem (s.withFetchWord nbits w).pc = some (Digit.byte op) := by
      rw [← byte_of_digit hop]
      simpa [State.withFetchWord, hb] using h0
    have hy : Memory.read (s.withFetchWord nbits w).mem ((s.withFetchWord nbits w).pc + 1) = some (Digit.byte o) := by
      rw [← byte_of_digit ho]
      simpa [State.withFetchWord, hb] using h1
    exact fetch_digits hx hy
  · cases h

end Sys2Proof.Machine
end

