-- ==== Sys2Proof/Tests/Slice0.lean ====
section
/-! SUPPORT. Tests of one step each, decoding tests, the smoke test of WellFormed, and the witnesses of the statements'
hypotheses. Expected values are those of spec/95_test_vectors.md (the section is named before each group) and of the
encodings of spec/30_encoding.md, none of them from the model. -/

namespace Sys2Proof.Tests

open Sys2Proof.Machine

/-- A running machine at `pc` over the program `p`. -/
def running (p : Program) (a b c : Word) (pc : Nat) : State :=
  { State.reset with a := a, b := b, c := c, pc := pc, mem := Memory.ofProgram p, loaded := true, runLen := some p.length }

/-- What a step leaves of a state, read by `f`. -/
def after {α : Type} (s : State) (f : State → α) : Option α :=
  match step s with
  | .next t => some (f t)
  | .fault _ => none
  | .refused _ => none

def view (s : State) : Nat × Nat × Nat × Nat := (s.a.toNat, s.b.toNat, s.c.toNat, s.pc)

def M : Word := 18446744073709551615
def H : Word := 9223372036854775808

/-! 95_test_vectors.md 2.2 to 2.4: the shifts. -/

theorem test_adv_3 : after (running [0, 3] 729 5 6 0) view = some (91, 5, 6, 2) := by decide
theorem test_adv_count_64 : after (running [0, 5] M 64 0 0) view = some (0, 64, 0, 2) := by decide
theorem test_bdv_count_is_old_b : after (running [6, 5] 100 2 3 0) view = some (100, 25, 3, 2) := by decide
theorem test_bdv_copies_a : after (running [6, 0] 100 9 3 0) view = some (100, 100, 3, 2) := by decide
theorem test_cdv_count_is_old_c : after (running [7, 6] 100 9 3 0) view = some (100, 9, 12, 2) := by decide
theorem test_cdv_count_in_b : after (running [7, 5] 1000 3 0 0) view = some (1000, 3, 125, 2) := by decide

/-! 2.5 to 2.7: the bitwise instructions. -/

theorem test_bxl_keeps_high_bits : after (running [1, 5] 1 M 2 0) view = some (1, 18446744073709551610, 2, 2) := by decide
theorem test_bxl_literal_7 : after (running [1, 7] 1 1000 2 0) view = some (1, 1007, 2, 2) := by decide
theorem test_bst_in_place : after (running [2, 5] 9 77 16 0) view = some (9, 5, 16, 2) := by decide
theorem test_bst_constant : after (running [2, 3] 9 77 16 0) view = some (9, 3, 16, 2) := by decide
theorem test_bxc_operand_7 : after (running [4, 7] 1 126 125 0) view = some (1, 3, 125, 2) := by decide
theorem test_bxc_all_bits : after (running [4, 3] 1 M H 0) view = some (1, 9223372036854775807, 9223372036854775808, 2) := by
  decide

/-! 2.8: `jnz`. The two faults show the order of the checks and that a target of LEN faults. -/

theorem test_jnz_tests_all_bits : after (running [3, 6, 5, 0, 5, 1, 5, 2] H 0 0 0) State.pc = some 6 := by decide
theorem test_jnz_odd_and_out_of_range : after (running [3, 7] 1 0 0 0) (fun t => (t.pc, t.fault)) =
    some (0, some { cause := .jumpTargetOutOfRange, fpc := 0, fop := 7 }) := by decide

/-! 2.9: `out`; 2.2 again: a combo operand 7 records cause 1 and writes nothing. -/

theorem test_out_mod_8 : after (running [5, 4] 9 16 M 0) (fun t => (t.out, t.pc)) = some ([1], 2) := by decide
theorem test_out_appends_at_the_end :
    after { running [5, 4] 1 0 0 0 with out := [3, 3] } (fun t => (t.out, t.pc)) = some ([3, 3, 1], 2) := by decide
theorem test_combo_7 : after (running [0, 7] 729 5 6 0) (fun t => (view t, t.fault)) =
    some ((729, 5, 6, 0), some { cause := .invalidComboOperand, fpc := 0, fop := 7 }) := by decide

/-! 2.10: status, LOAD and START. -/

theorem test_status_stopped_wins :
    after { running [5, 4] 9 0 0 0 with mode := .firstOut } State.status = some (some .stopped) := by decide
theorem test_status_halted : after (running [5, 4] 9 0 0 0) State.status = some (some .halted) := by decide

/-- What a transaction is refused with. -/
def refusal : Outcome → Option Refusal
  | .refused r => some r
  | .next _ => none
  | .fault _ => none

theorem test_load_odd_length : refusal (State.reset.load none [0, 3, 5]) = some .oddLength := by decide
theorem test_load_cell_out_of_range : refusal (State.reset.load none [0, 8]) = some .cellOutOfRange := by decide
theorem test_start_before_load : refusal (State.reset.start 0 .full) = some .noProgram := by decide
theorem test_start_seed_out_of_range :
    refusal ({ State.reset with loaded := true }.start (2 ^ 64) .full) = some .seedOutOfRange := by decide

/-! The smoke test of WellFormed: for each check an ill-formed program, which it refuses. -/

theorem test_wellFormed_refuses_odd_length : Program.wellFormed [0, 3, 5] = false := by decide
theorem test_wellFormed_refuses_cell_8 : Program.wellFormed [0, 8] = false := by decide
theorem test_wellFormed_accepts_empty : Program.wellFormed [] = true := by decide
theorem test_wellFormed_accepts_faulting_word : Program.wellFormed [0, 7] = true := by decide

/-! Decoding: one word per constructor, written out from the word patterns of 30_encoding.md R75. -/

theorem test_decode_adv : decode [0b000, 0b011] = .ok (.adv 3) [] := by decide
theorem test_decode_bxl : decode [0b001, 0b111] = .ok (.bxl 7) [] := by decide
theorem test_decode_bst : decode [0b010, 0b100] = .ok (.bst 4) [] := by decide
theorem test_decode_jnz : decode [0b011, 0b000] = .ok (.jnz 0) [] := by decide
theorem test_decode_bxc : decode [0b100, 0b001] = .ok (.bxc 1) [] := by decide
theorem test_decode_out : decode [0b101, 0b100] = .ok (.out 4) [] := by decide
theorem test_decode_bdv : decode [0b110, 0b101] = .ok (.bdv 5) [] := by decide
theorem test_decode_cdv : decode [0b111, 0b110] = .ok (.cdv 6) [] := by decide
theorem test_decode_rejects_byte_8 : decode [8, 0] = .rejected .opcodeOutOfRange := by decide
theorem test_table_word : decodeTableWord 8 0b111110 = some (.cdv 6) ∧ decodeTableWord 8 0x40 = none := by decide

/-- The first instruction after reset, placed as the host places it (95_test_vectors.md S1: `out` of a constant). -/
theorem test_withFetchWord : after (State.reset.withFetchWord 8 0b101011) State.out = some [3] := by decide

/-- The spelling of spec/30_encoding.md R79 and of spec/50_host_interface.md R157. -/
theorem test_spelling : (Instr.asm (.adv 3)).toList = ['a', 'd', 'v', ' ', '3'] ∧
    listingChars [0, 1, 2] = ['0', ',', '1', ',', '2'] := by decide

/-! Witnesses: concrete states and operands that meet the hypotheses of the statements. -/

/-- The program of 95_test_vectors.md P1 before its third instruction. -/
def loop : State := running [0, 3, 5, 4, 3, 0] 91 0 0 4

/-- A run that has faulted (95_test_vectors.md P6). -/
def faulted : State :=
  { running [3, 6] 1 0 0 0 with fault := some { cause := .jumpTargetOutOfRange, fpc := 0, fop := 6 } }

/-- A run that has halted, and one that has stopped. -/
def halted : State := running [5, 4] 9 0 0 2
def stopped : State := { running [5, 4] 9 0 0 2 with mode := .firstOut, out := [1] }

theorem witness_AdvShiftsAIntoA : (6 : Digit) ≠ 7 ∧ (7 : Digit) = 7 := by decide
theorem witness_BdvShiftsAIntoB : (6 : Digit) ≠ 7 ∧ (7 : Digit) = 7 := by decide
theorem witness_CdvShiftsAIntoC : (6 : Digit) ≠ 7 ∧ (7 : Digit) = 7 := by decide
theorem witness_BstReducesComboIntoB : (6 : Digit) ≠ 7 ∧ (7 : Digit) = 7 := by decide
theorem witness_OutAppendsLowDigit : (6 : Digit) ≠ 7 ∧ (7 : Digit) = 7 := by decide

theorem witness_JnzFollowsItsFourBranches :
    (running [3, 0] 0 0 0 0).a = 0 ∧
    (loop.a ≠ 0 ∧ (4 : Digit).toNat < loop.mem.length ∧ (4 : Digit).toNat % 2 = 0) ∧
    (loop.a ≠ 0 ∧ loop.mem.length ≤ (6 : Digit).toNat) ∧
    (loop.a ≠ 0 ∧ (5 : Digit).toNat < loop.mem.length ∧ (5 : Digit).toNat % 2 = 1) := by decide

theorem witness_LiteralOperandIsZeroExtended :
    loop.a ≠ 0 ∧ literalIndex 4 < loop.mem.length ∧ literalIndex 4 % 2 = 0 := by decide

theorem witness_ComboSevenFaultsExactlyThere :
    loop.fault = none ∧ (∃ t, exec (.adv 7) loop = .next t) ∧ (∃ t, exec (.bxl 7) loop = .next t) :=
  ⟨rfl, ⟨_, rfl⟩, ⟨_, rfl⟩⟩

theorem witness_PcAfterEveryInstruction : loop.fault = none := rfl

theorem witness_FaultRecordIsPreciseAndComplete :
    faultCause (.adv 7) loop = some .invalidComboOperand ∧ faultCause (.jnz 6) loop = some .jumpTargetOutOfRange ∧
    faultCause (.jnz 5) loop = some .jumpTargetMisaligned ∧ faultCause (.jnz 4) loop = none := by decide

theorem witness_FrameOfRegisterInstructions :
    (∀ o, Instr.bdv 5 ≠ .jnz o ∧ Instr.bdv 5 ≠ .out o) ∧ (∃ t, exec (.bdv 5) loop = .next t) ∧
    (∃ t, exec (.bdv 7) loop = .next t) :=
  ⟨fun _ => ⟨by simp, by simp⟩, ⟨_, rfl⟩, ⟨_, rfl⟩⟩

theorem witness_FrameOfJnz : (∃ t, exec (.jnz 0) loop = .next t) ∧ ∃ t, exec (.jnz 6) loop = .next t ∧ t.fault ≠ loop.fault :=
  ⟨⟨_, rfl⟩, ⟨_, rfl, by decide⟩⟩

theorem witness_FrameOfOut : (∃ t, exec (.out 4) loop = .next t) ∧ ∃ t, exec (.out 7) loop = .next t :=
  ⟨⟨_, rfl⟩, ⟨_, rfl⟩⟩

theorem witness_RegistersReadAndWrittenByTable :
    (∃ t, exec (.bdv 6) loop = .next t) ∧
    (∀ r ∈ registersRead (.bdv 6), ({ loop with a := 91, b := 5, c := 0 } : State).readReg r = loop.readReg r) ∧
    ∃ t, exec (.bdv 6) { loop with a := 91, b := 5, c := 0 } = .next t :=
  ⟨⟨_, rfl⟩, by decide, ⟨_, rfl⟩⟩

theorem witness_ShiftIsFloorDivision : 64 ≤ (64 : Word).toNat := by decide

theorem witness_XorInstructionsUndoThemselves :
    ∃ t u, (∃ o, Instr.bxl 6 = .bxl o) ∧ exec (.bxl 6) loop = .next t ∧ exec (.bxl 6) t = .next u :=
  ⟨_, _, ⟨_, rfl⟩, rfl, rfl⟩

theorem witness_ModeIsInvisibleToInstructions : ∃ t, exec (.out 4) loop = .next t := ⟨_, rfl⟩

theorem witness_EncodeOfDecodeIsTheBytes : decode [0, 3, 5] = .ok (.adv 3) [5] := by decide

theorem witness_OpcodeMapByMatchAndMask :
    (Instr.cdv 7, 0x38) ∈ [(Instr.adv 7, 0x00), (.bxl 7, 0x08), (.bst 7, 0x10), (.jnz 7, 0x18), (.bxc 7, 0x20),
      (.out 7, 0x28), (.bdv 7, 0x30), (.cdv 7, 0x38)] := by decide

theorem witness_EverySixBitWordIsOneInstruction :
    63 < 64 ∧ (Instr.cdv 7).word = 63 ∧ 64 ≤ 64 ∧ 64 < 256 := by decide

theorem witness_DecoderRejectsByName : ([7, 8] : List Byte) = 7 :: 8 :: [] := rfl

theorem witness_StepRunsTheDecodedInstruction :
    loop.status = some .running ∧ Memory.read loop.mem loop.pc = some 3 ∧ Memory.read loop.mem (loop.pc + 1) = some 0 ∧
    decode [3, 0] = .ok (.jnz 0) [] := by decide

theorem witness_StepDispatchesOnTheOpcodeCell :
    ∀ op : Digit, (running [op.toNat, 4] 1 0 0 0).status = some .running ∧
      Memory.read (running [op.toNat, 4] 1 0 0 0).mem 0 = some (Digit.byte op) ∧
      Memory.read (running [op.toNat, 4] 1 0 0 0).mem 1 = some (Digit.byte 4) := by decide

theorem witness_StatusByPriority :
    (faulted.runLen = some 2 ∧ faulted.fault ≠ none) ∧
    (stopped.runLen = some 2 ∧ stopped.fault = none ∧ stopped.mode = .firstOut ∧ 1 ≤ stopped.out.length) ∧
    (halted.runLen = some 2 ∧ halted.fault = none ∧ ¬(halted.mode = .firstOut ∧ 1 ≤ halted.out.length) ∧ 2 ≤ halted.pc) ∧
    (loop.runLen = some 6 ∧ loop.fault = none ∧ ¬(loop.mode = .firstOut ∧ 1 ≤ loop.out.length) ∧ loop.pc < 6) := by
  decide

theorem witness_NoStepOutsideRunning :
    State.reset.status = none ∧ halted.status = some .halted ∧ stopped.status = some .stopped ∧
    faulted.status = some .faulted := by decide

theorem witness_ProgramIsImmutableDuringARun :
    (∃ t, step loop = .next t) ∧ loop.status = some .running ∧ ∃ t, halted.start 9 .full = .next t :=
  ⟨⟨_, rfl⟩, by decide, ⟨_, rfl⟩⟩

theorem witness_AccumulatorNeverIncreases : ∃ t, step (running [0, 3] 729 5 6 0) = .next t := ⟨_, rfl⟩

theorem witness_OutputOnlyGrows : ∃ t, step (running [5, 4] 9 16 0 0) = .next t ∧ t.out ≠ [] := ⟨_, rfl, by decide⟩

theorem witness_OnlyTheirWritersChangeRegisters :
    (∃ t, step (running [0, 3] 729 5 6 0) = .next t ∧ t.a ≠ 729) ∧
    (∃ t, step (running [7, 3] 729 5 6 0) = .next t ∧ t.c ≠ 6) ∧
    (∃ t, step (running [1, 3] 729 5 6 0) = .next t ∧ t.b ≠ 5) :=
  ⟨⟨_, rfl, by decide⟩, ⟨_, rfl, by decide⟩, ⟨_, rfl, by decide⟩⟩

theorem witness_JnzToItselfHangs :
    (running [3, 0] 1 0 0 0).status = some .running ∧ fetch (running [3, 0] 1 0 0 0) = .ok (.jnz 0) ∧
    (running [3, 0] 1 0 0 0).pc = (0 : Digit).toNat ∧ (running [3, 0] 1 0 0 0).a ≠ 0 ∧ (0 : Digit).toNat % 2 = 0 ∧
    (0 : Digit).toNat < (running [3, 0] 1 0 0 0).mem.length := by decide

theorem inv_loop : loop.Inv where
  canonical := by decide
  program := by decide
  unloaded := by decide
  lenEven := by intro n h; cases h; rfl
  pcEven := rfl
  pcInProgram := by intro n h; cases h; decide
  runsLoaded := by decide
  earlyStop := by decide
  beforeStart := by decide
  faultFits := by intro r n h; cases h

theorem inv_faulted : faulted.Inv where
  canonical := by decide
  program := by decide
  unloaded := by decide
  lenEven := by intro n h; cases h; rfl
  pcEven := rfl
  pcInProgram := by intro n h; cases h; decide
  runsLoaded := by decide
  earlyStop := by decide
  beforeStart := by decide
  faultFits := by
    intro r n hr hn
    cases hr
    cases hn
    exact ⟨rfl, by decide, by decide, by decide, by decide⟩

theorem inv_halted : halted.Inv where
  canonical := by decide
  program := by decide
  unloaded := by decide
  lenEven := by intro n h; cases h; rfl
  pcEven := rfl
  pcInProgram := by intro n h; cases h; decide
  runsLoaded := by decide
  earlyStop := by decide
  beforeStart := by decide
  faultFits := by intro r n h; cases h

theorem inv_stopped : stopped.Inv where
  canonical := by decide
  program := by decide
  unloaded := by decide
  lenEven := by intro n h; cases h; rfl
  pcEven := rfl
  pcInProgram := by intro n h; cases h; decide
  runsLoaded := by decide
  earlyStop := by decide
  beforeStart := by decide
  faultFits := by intro r n h; cases h

theorem witness_StepKeepsTheInvariant : loop.Inv ∧ ∃ t, step loop = .next t := ⟨inv_loop, ⟨_, rfl⟩⟩

theorem witness_LoadKeepsTheInvariant : halted.Inv ∧ ∃ t, halted.load none [0, 3] = .next t := ⟨inv_halted, ⟨_, rfl⟩⟩

theorem witness_StartKeepsTheInvariant : halted.Inv ∧ ∃ t, halted.start 9 .firstOut = .next t := ⟨inv_halted, ⟨_, rfl⟩⟩

theorem witness_StepNeverGetsStuck : loop.Inv ∧ faulted.Inv := ⟨inv_loop, inv_faulted⟩

theorem witness_ReachableStatesAreSafe : ∃ s, Reachable s ∧ s.status = some .running :=
  ⟨_, .start 9 .full (.load none [5, 4] .reset rfl) rfl, by decide⟩

theorem witness_WhereRunsEnd :
    (halted.Inv ∧ halted.status = some .halted) ∧ (stopped.Inv ∧ stopped.status = some .stopped) ∧
    (faulted.Inv ∧ faulted.status = some .faulted) :=
  ⟨⟨inv_halted, by decide⟩, ⟨inv_stopped, by decide⟩, ⟨inv_faulted, by decide⟩⟩

theorem witness_LoadAcceptsExactlyWellFormedPrograms :
    loop.status = some .running ∧ halted.status ≠ some .running ∧
    ([0, 3, 5].length % 2 = 1 ∧ [0, 8].length % 2 = 0 ∧ ∃ n ∈ [0, 8], 7 < n) ∧
    ([0, 7].length % 2 = 0 ∧ (∀ n ∈ [0, 7], n ≤ 7) ∧ ∃ m, some 1 = some m ∧ m < [0, 7].length) ∧
    (∀ m, some 2 = some m → [0, 7].length ≤ m) := by
  refine ⟨by decide, by decide, by decide, ⟨by decide, by decide, 1, rfl, by decide⟩, ?_⟩
  intro m h
  cases h
  decide

theorem witness_StartResetsThePerRunState :
    loop.status = some .running ∧ (State.reset.status ≠ some .running ∧ State.reset.loaded = false) ∧
    (halted.status ≠ some .running ∧ halted.loaded = true ∧ 2 ^ 64 ≤ 2 ^ 64 ∧ 2 ^ 64 - 1 < 2 ^ 64) := by decide

theorem witness_RunsAreIndependentOfHistory :
    halted.status ≠ some .running ∧ stopped.status ≠ some .running ∧ halted.loaded = stopped.loaded ∧
    halted.mem = stopped.mem := by decide

theorem witness_EarlyExitReturnsTheFirstDigit :
    execute 1 none 9 [5, 4] State.reset = .sequence [1] ∧
    ∃ t, runProgram 1 none .full 9 [5, 4] State.reset = .next t ∧ t.out = [1] := ⟨by decide, ⟨_, rfl, by decide⟩⟩

theorem witness_MoreFuelGivesTheSameResult :
    execute 1 none 9 [5, 4] State.reset ≠ .unfinished ∧ executeUntilFirstOutput 1 none 9 [5, 4] State.reset ≠ .unfinished := by
  decide

theorem witness_OnlyStartLeavesFaulted :
    faulted.status = some .faulted ∧ (∃ t, faulted.load none [5, 4] = .next t) ∧ ∃ t, faulted.start 0 .full = .next t :=
  ⟨by decide, ⟨_, rfl⟩, ⟨_, rfl⟩⟩

theorem witness_ResultReportsEndedRuns : ∃ rep, stopped.result = some rep := ⟨_, rfl⟩

theorem witness_ListingIsFaithful :
    0 < ([0, 7] : List Digit).length ∧ 1 < ([0, 7] : List Digit).length ∧ 0 + 1 < ([0, 7] : List Digit).length ∧
    listing [0, 7] = listing [0, 7] := ⟨by decide, by decide, by decide, rfl⟩

/-- Each clause's two sides are met: 95_test_vectors.md 2.10 for the digit and NoOutput, P6 for the fault, P8 for a run
that never ends. -/
theorem witness_EarlyExitResultByFinalStatus :
    executeUntilFirstOutput 1 none 9 [5, 4] State.reset = .digit 1 ∧
    executeUntilFirstOutput 1 none 5 [0, 3] State.reset = .noOutput ∧
    executeUntilFirstOutput 1 none 1 [3, 6] State.reset =
      .malformed { cause := .jumpTargetOutOfRange, fpc := 0, fop := 6 } ∧
    executeUntilFirstOutput 1 none 1 [3, 0] State.reset = .unfinished := by decide

end Sys2Proof.Tests
end

section
/-! SUPPORT. The instruction pointer after an instruction (spec/10_state.md R26, spec/40_step_and_operands.md R96). -/

namespace Sys2Proof.Machine

/-- Where an effect leaves pc: a taken jump at its operand, a raise where it was, every other effect two cells on. -/
theorem Effect.pc_cases {s t : State} {i : Instr} (h : Effect s i t) :
    (t.fault = s.fault ∧ ∃ o, i = .jnz o ∧ s.a ≠ 0 ∧ t.pc = o.toNat) ∨
      (t.fault = s.fault ∧ (∀ o, i = .jnz o → s.a = 0) ∧ t.pc = s.pc + 2) ∨
      (t.fault ≠ none ∧ t.pc = s.pc) := by
  cases h with
  | taken ha => exact .inl ⟨rfl, _, rfl, ha, rfl⟩
  | notTaken ha => exact .inr (.inl ⟨rfl, fun _ _ => ha, rfl⟩)
  | adv | bxl | bst | bxc | out | bdv | cdv => exact .inr (.inl ⟨rfl, nofun, rfl⟩)
  | combo7 | outOfRange | misaligned => exact .inr (.inr ⟨nofun, rfl⟩)

/-- Settles O12: `exec` always answers a next state, and its effect is one of the three cases of `Effect.pc_cases`; with
no fault recorded before, the fault after it tells the raise from the other two. -/
theorem pcAfterEveryInstruction : Obligations.PcAfterEveryInstruction := by
  intro i s hs
  obtain ⟨t, ht⟩ := exec_next i s
  refine ⟨t, ht, ?_⟩
  obtain ⟨hf, hjump⟩ | ⟨hf, hadvance⟩ | ⟨hf, hpc⟩ := (exec_effect ht).pc_cases
  · exact ⟨fun _ => .inl hjump, fun hne => absurd (hf.trans hs) hne⟩
  · exact ⟨fun _ => .inr hadvance, fun hne => absurd (hf.trans hs) hne⟩
  · exact ⟨fun hnone => absurd hnone hf, fun _ => hpc⟩

end Sys2Proof.Machine
end

section
/-! SUPPORT. The operand forms: the combo operand's table (spec/30_encoding.md R74) and the literal operand (R73). -/

namespace Sys2Proof.Machine

section combo
variable (s : State)

/-- A combo operand below 4 is itself, zero-extended like a literal. -/
theorem combo_of_lt_four {o : Digit} (h : o.toNat < 4) : combo s o = some (literalWord o) := by
  unfold combo
  split
  case h_5 => rfl
  all_goals omega

theorem combo_four : combo s 4 = some s.a := rfl
theorem combo_five : combo s 5 = some s.b := rfl
theorem combo_six : combo s 6 = some s.c := rfl

end combo

/-- An instruction over a combo operand raises InvalidComboOperand for operand 7 and has no other effect. -/
theorem exec_combo_seven {i : Instr} (s : State) (hkind : i.operandKind = .combo) (hop : i.operand = 7) :
    exec i s = .next (raised .invalidComboOperand 7 s) := by
  have viaCombo : ∀ (o : Digit) (effect : Word → State), o = 7 →
      withCombo o s effect = .next (raised .invalidComboOperand 7 s) := by
    rintro o effect rfl
    exact withCombo_seven s effect
  cases i with
  | adv | bst | out | bdv | cdv => exact viaCombo _ _ hop
  | bxl | jnz | bxc => cases hkind

/-- Settles O9: the table's rows are the values of `combo`, and the five instructions share `exec_combo_seven`. -/
theorem comboOperandTable : Obligations.ComboOperandTable := by
  intro s
  refine ⟨combo_of_lt_four s (o := 0) (by decide), combo_of_lt_four s (o := 1) (by decide),
    combo_of_lt_four s (o := 2) (by decide), combo_of_lt_four s (o := 3) (by decide),
    combo_four s, combo_five s, combo_six s, combo_seven s, fun i hi => ?_⟩
  have hform : ∀ j ∈ [Instr.adv 7, .bst 7, .out 7, .bdv 7, .cdv 7], j.operandKind = .combo ∧ j.operand = 7 := by
    decide
  obtain ⟨hkind, hop⟩ := hform i hi
  exact ⟨_, rfl, exec_combo_seven s hkind hop⟩

/-- A literal operand keeps its value at register width. -/
@[simp] theorem literalWord_toNat (o : Digit) : (literalWord o).toNat = o.toNat :=
  BitVec.toNat_setWidth_of_le (by decide)

/-- A taken `jnz` to an even index inside the program goes there and changes nothing else. -/
theorem exec_jnz_taken {s : State} {o : Digit} (ha : s.a ≠ 0) (hlen : literalIndex o < s.mem.length)
    (heven : literalIndex o % 2 = 0) : exec (.jnz o) s = .next { s with pc := literalIndex o } := by
  have htaken : s.jumpTaken = true := (jumpTaken_iff s).mpr ha
  have hodd : literalIndex o % 2 ≠ 1 := by omega
  simp only [exec, execJnz, jumpTo, if_pos htaken, if_neg (Nat.not_le.mpr hlen), if_neg hodd]

/-- Settles O10: zero-extension keeps the digit's value, `bxl` takes it at register width, a taken `jnz` as an index. -/
theorem literalOperandIsZeroExtended : Obligations.LiteralOperandIsZeroExtended := by
  intro o
  have hle : (literalWord o).toNat ≤ 7 := by
    rw [literalWord_toNat]
    have := o.isLt
    omega
  exact ⟨literalWord_toNat o, rfl, hle, fun s => ⟨rfl, exec_jnz_taken⟩⟩

end Sys2Proof.Machine
end

section
/-! SUPPORT. Where InvalidComboOperand is raised (spec/40_step_and_operands.md R95) and the dispatch on the opcode cell
(R92). -/

namespace Sys2Proof.Machine

/-- The five words with a combo operand of 7, told by the operand's kind and its value. -/
theorem comboWordSeven_iff (i : Instr) :
    (i = .adv 7 ∨ i = .bst 7 ∨ i = .out 7 ∨ i = .bdv 7 ∨ i = .cdv 7) ↔ i.operandKind = .combo ∧ i.operand = 7 := by
  cases i <;> simp [Instr.operandKind, Instr.operand]

/-- An effect that newly records InvalidComboOperand is that of a combo instruction with operand 7: `jnz` raises other
causes, and an effect that raises nothing keeps the old record. -/
theorem Effect.combo_seven_of_invalidCombo {s t : State} {i : Instr} {r : FaultRecord} (h : Effect s i t)
    (hs : s.fault = none) (hr : t.fault = some r) (hcause : r.cause = .invalidComboOperand) :
    i.operandKind = .combo ∧ i.operand = 7 := by
  cases h with
  | combo7 hkind hop => exact ⟨hkind, hop⟩
  | outOfRange | misaligned =>
    cases hr
    cases hcause
  | adv | bxl | bst | notTaken | taken | bxc | out | bdv | cdv => cases hs.symm.trans hr

/-- Settles O11: only a combo instruction with operand 7 records the cause, and `exec_combo_seven` gives its whole
effect. -/
theorem comboSevenFaultsExactlyThere : Obligations.ComboSevenFaultsExactlyThere := by
  intro i s t hs ht
  rw [comboWordSeven_iff]
  have hraised (hseven : i.operandKind = .combo ∧ i.operand = 7) : t = raised .invalidComboOperand 7 s := by
    obtain ⟨hkind, hop⟩ := hseven
    rw [exec_combo_seven s hkind hop, Host.Outcome.next.injEq] at ht
    exact ht.symm
  refine ⟨⟨?_, fun hseven => ?_⟩, fun hseven => ?_⟩
  · rintro ⟨r, hr, hcause⟩
    exact (exec_effect ht).combo_seven_of_invalidCombo hs hr hcause
  · rw [hraised hseven]
    exact ⟨_, rfl, rfl⟩
  · rw [hraised hseven]
    rfl

/-- Settles O28: the step runs what the two cells decode to, and each opcode value selects its row of the opcode map. -/
theorem stepDispatchesOnTheOpcodeCell : Obligations.StepDispatchesOnTheOpcodeCell := by
  intro s op o hs hop ho
  have hstep : step s = exec (Instr.ofDigits op o) s := step_running hs (fetch_digits hop ho)
  refine ⟨?_, ?_, ?_, ?_, ?_, ?_, ?_, ?_⟩
  all_goals
    rintro rfl
    exact hstep

end Sys2Proof.Machine
end

section
/-! SUPPORT. The three shift instructions: one divide, three destinations (spec/41_shift_divide.md). -/

namespace Sys2Proof.Machine

/-- The shift is the floor division of R102. From 64 on the model answers 0, which is the quotient because `a < 2 ^ 64`. -/
theorem shr_toNat (a v : Word) : (shr a v).toNat = a.toNat / 2 ^ v.toNat := by
  unfold shr
  split
  · rw [BitVec.toNat_ushiftRight, Nat.shiftRight_eq_div_pow]
  · next hcount =>
    have hlt : a.toNat < 2 ^ v.toNat :=
      a.isLt.trans_le (Nat.pow_le_pow_right Nat.two_pos (Nat.le_of_not_lt hcount))
    exact (Nat.div_eq_of_lt hlt).symm

theorem shr_eq_ofNat (a v : Word) : shr a v = BitVec.ofNat 64 (a.toNat / 2 ^ v.toNat) := by
  rw [← shr_toNat, BitVec.ofNat_toNat, BitVec.setWidth_eq]

/-- Every operand but 7 has a value, and the instruction completes with it. -/
theorem withCombo_completes {o : Digit} (s : State) (effect : Word → State) (h7 : o ≠ 7) :
    ∃ v, combo s o = some v ∧ withCombo o s effect = .next (effect v).advance := by
  obtain ⟨v, hv⟩ := combo_isSome (s := s) h7
  exact ⟨v, hv, withCombo_value hv effect⟩

/-- The shape of the three shifts, R110 to R112, with the destination as a parameter: the dividend is always A. -/
theorem withCombo_shr_completes {o : Digit} (s : State) (r : Reg) (h7 : o ≠ 7) :
    ∃ v, combo s o = some v ∧ withCombo o s (fun v => s.writeReg r (shr s.a v)) =
      .next (s.writeReg r (BitVec.ofNat 64 (s.a.toNat / 2 ^ v.toNat))).advance := by
  simp only [← shr_eq_ofNat]
  exact withCombo_completes s _ h7

/-- A combo instruction with operand 7 records InvalidComboOperand and changes no other field. -/
theorem exec_combo_seven_records {i : Instr} (s : State) (hkind : i.operandKind = .combo) (hop : i.operand = 7) :
    ∃ r : FaultRecord, r.cause = .invalidComboOperand ∧ exec i s = .next { s with fault := some r } :=
  ⟨_, rfl, exec_combo_seven s hkind hop⟩

/-- Settles O1: `adv` is the shared shift with destination A. -/
theorem advShiftsAIntoA : Obligations.AdvShiftsAIntoA := fun s o =>
  ⟨rfl, withCombo_shr_completes s .A, exec_combo_seven_records (i := .adv o) s rfl⟩

/-- Settles O2: `bdv` is the shared shift with destination B. -/
theorem bdvShiftsAIntoB : Obligations.BdvShiftsAIntoB := fun s o =>
  ⟨rfl, withCombo_shr_completes s .B, exec_combo_seven_records (i := .bdv o) s rfl⟩

/-- Settles O3: `cdv` is the shared shift with destination C. -/
theorem cdvShiftsAIntoC : Obligations.CdvShiftsAIntoC := fun s o =>
  ⟨rfl, withCombo_shr_completes s .C, exec_combo_seven_records (i := .cdv o) s rfl⟩

end Sys2Proof.Machine
end

section
/-! SUPPORT. The instructions that write B without shifting: `bxl` and `bst` (spec/42_bitwise.md). -/

namespace Sys2Proof.Machine

/-- Zero-extending a digit keeps its value, so `bxl` takes the operand as a number below 8. -/
theorem literalWord_eq_ofNat (o : Digit) : literalWord o = BitVec.ofNat 64 o.toNat :=
  (BitVec.ofNat_toNat 64 o).symm

/-- The low three bits are the unsigned remainder (R123 (b)). -/
@[simp] theorem low3_toNat (v : Word) : (low3 v).toNat = v.toNat % 8 := BitVec.toNat_setWidth 3 v

theorem setWidth_low3_eq_ofNat (v : Word) : (low3 v).setWidth 64 = BitVec.ofNat 64 (v.toNat % 8) := by
  rw [← low3_toNat, BitVec.ofNat_toNat]

/-- Settles O4: `bxl` raises nothing, and the literal at register width is the number `o`. -/
theorem bxlXorsLiteralIntoB : Obligations.BxlXorsLiteralIntoB := by
  intro s o
  rw [← literalWord_eq_ofNat]
  exact ⟨rfl, rfl⟩

/-- The completing case of `bst`, R121. -/
theorem exec_bst_completes {o : Digit} (s : State) (h7 : o ≠ 7) :
    ∃ v, combo s o = some v ∧
      exec (.bst o) s = .next { s with b := BitVec.ofNat 64 (v.toNat % 8), pc := s.pc + 2 } := by
  simp only [← setWidth_low3_eq_ofNat]
  exact withCombo_completes s _ h7

/-- Settles O5: every operand but 7 has a combo value, whose low three bits are the remainder; 7 records the cause. -/
theorem bstReducesComboIntoB : Obligations.BstReducesComboIntoB := fun s o =>
  ⟨rfl, exec_bst_completes s, exec_combo_seven_records (i := .bst o) s rfl⟩

end Sys2Proof.Machine
end

section
/-! SUPPORT. The output instruction: `out` (spec/44_output.md). -/

namespace Sys2Proof.Machine

theorem low3_eq_ofNat (v : Word) : low3 v = BitVec.ofNat 3 (v.toNat % 8) := by
  rw [← low3_toNat, BitVec.ofNat_toNat, BitVec.setWidth_eq]

/-- The completing case of `out`, R140: one digit at the end, and the default advance. -/
theorem exec_out_completes {o : Digit} (s : State) (h7 : o ≠ 7) :
    ∃ v, combo s o = some v ∧
      exec (.out o) s = .next { s with out := s.out ++ [BitVec.ofNat 3 (v.toNat % 8)], pc := s.pc + 2 } := by
  simp only [← low3_eq_ofNat]
  exact withCombo_completes s (fun v => s.outAppend (low3 v)) h7

/-- Settles O7: every operand but 7 has a combo value, whose low three bits are the digit appended; 7 records the
cause. -/
theorem outAppendsLowDigit : Obligations.OutAppendsLowDigit := fun s o =>
  ⟨rfl, exec_out_completes s, exec_combo_seven_records (i := .out o) s rfl⟩

end Sys2Proof.Machine
end

section
/-! SUPPORT. The run mode and the two run contracts: a FIRST_OUT run follows the FULL run of the same program and seed
up to its first digit (spec/50_host_interface.md R155). -/

namespace Sys2Proof.Machine

/-- The effects are all of `exec`: the converse of `exec_effect`. -/
theorem Effect.exec_eq {s t : State} {i : Instr} (h : Effect s i t) : exec i s = .next t := by
  have taken {o : Digit} (ha : s.a ≠ 0) : exec (.jnz o) s = jumpTo o s := if_pos ((jumpTaken_iff s).mpr ha)
  cases h with
  | adv _ hv | bst _ hv | out _ hv | bdv _ hv | cdv _ hv => exact withCombo_value hv _
  | bxl | bxc => rfl
  | notTaken ha => exact if_neg fun ht => (jumpTaken_iff s).mp ht ha
  | taken ha hlen heven => exact exec_jnz_taken ha hlen heven
  | combo7 hkind hop => exact exec_combo_seven s hkind hop
  | outOfRange ha hlen => exact (taken ha).trans (if_pos hlen)
  | misaligned ha hlen hodd => exact (taken ha).trans ((if_neg (Nat.not_le.mpr hlen)).trans (if_pos hodd))

/-- No effect reads or writes the mode (spec/40_step_and_operands.md R103). -/
theorem Effect.withMode {s t : State} {i : Instr} (m : Mode) (h : Effect s i t) :
    Effect { s with mode := m } i { t with mode := m } := by
  cases h with
  | adv h7 hv => exact .adv h7 hv
  | bxl => exact .bxl
  | bst h7 hv => exact .bst h7 hv
  | notTaken ha => exact .notTaken ha
  | taken ha hlen heven => exact .taken ha hlen heven
  | bxc => exact .bxc
  | out h7 hv => exact .out h7 hv
  | bdv h7 hv => exact .bdv h7 hv
  | cdv h7 hv => exact .cdv h7 hv
  | combo7 hkind hop => exact .combo7 hkind hop
  | outOfRange ha hlen => exact .outOfRange ha hlen
  | misaligned ha hlen hodd => exact .misaligned ha hlen hodd

/-- Only `out` changes the output: it appends one digit, and raises nothing when it does. -/
theorem Effect.out_cases {s t : State} {i : Instr} (h : Effect s i t) :
    t.out = s.out ∨ ∃ d, t.out = s.out ++ [d] ∧ t.fault = s.fault ∧ t.runLen = s.runLen := by
  cases h with
  | out => exact .inr ⟨_, rfl, rfl, rfl⟩
  | adv | bxl | bst | notTaken | taken | bxc | bdv | cdv | combo7 | outOfRange | misaligned => exact .inl rfl

/-- A step that takes place is the effect of the fetched instruction. -/
theorem step_effect {s t : State} (hs : s.status = some .running) (h : step s = .next t) :
    ∃ i, fetch s = .ok i ∧ Effect s i t := by
  obtain ⟨-, i, hi, he⟩ | ⟨hne, -⟩ := step_cases h
  · exact ⟨i, hi, exec_effect he⟩
  · exact absurd hs hne

section runFor
variable {n : Nat} {s t u : State}

theorem runFor_ended (hs : s.status ≠ some .running) : runFor n s = .next s := by
  cases n with
  | zero => rfl
  | succ n => exact if_neg hs

theorem runFor_succ (hs : s.status = some .running) (hu : step s = .next u) : runFor (n + 1) s = runFor n u := by
  simp only [runFor, if_pos hs, hu]

/-- Everything a run with fuel for one more step can be. -/
theorem runFor_succ_cases (h : runFor (n + 1) s = .next t) :
    (s.status = some .running ∧ ∃ u, step s = .next u ∧ runFor n u = .next t) ∨
      (s.status ≠ some .running ∧ t = s) := by
  by_cases hs : s.status = some .running
  · simp only [runFor, if_pos hs] at h
    split at h
    · next u hu => exact .inl ⟨hs, u, hu, h⟩
    · cases h
    · cases h
  · rw [runFor_ended hs, Host.Outcome.next.injEq] at h
    exact .inr ⟨hs, h.symm⟩

/-- A run keeps the digits it began with as the first ones of its output. -/
theorem runFor_out_prefix (h : runFor n s = .next t) : s.out <+: t.out := by
  induction n generalizing s with
  | zero =>
    cases h
    exact List.prefix_rfl
  | succ n ih =>
    obtain ⟨hs, u, hu, hrun⟩ | ⟨-, rfl⟩ := runFor_succ_cases h
    · obtain ⟨i, -, he⟩ := step_effect hs hu
      have hstep : s.out <+: u.out := by
        obtain hsame | ⟨d, happ, -, -⟩ := he.out_cases
        · rw [hsame]
        · exact ⟨[d], happ.symm⟩
      exact hstep.trans (ih hrun)
    · exact List.prefix_rfl

end runFor

/-- Before its first digit a run in progress is in progress in either mode (spec/10_state.md R31). -/
theorem status_running_withMode {s : State} (m : Mode) (hout : s.out = []) (hs : s.status = some .running) :
    State.status { s with mode := m } = some .running := by
  obtain ⟨n, hn, hf, -, hpc⟩ := status_running_iff.mp hs
  exact status_running_iff.mpr ⟨n, hn, hf, by simp [hout], hpc⟩

/-- Before its first digit, the step of a run in progress is the same in either mode. -/
theorem step_withMode {s t : State} (m : Mode) (hout : s.out = []) (hs : s.status = some .running)
    (h : step s = .next t) : step { s with mode := m } = .next { t with mode := m } := by
  obtain ⟨i, hi, he⟩ := step_effect hs h
  exact (step_running (status_running_withMode m hout hs) hi).trans (he.withMode m).exec_eq

/-- A FIRST_OUT run that holds a digit and no fault has Stopped, and its result is its first digit, whatever the fuel
(R154). -/
theorem runFor_stopped_digit {n len : Nat} {s : State} {d : Digit} {ds : List Digit} (hmode : s.mode = .firstOut)
    (hlen : s.runLen = some len) (hf : s.fault = none) (hout : s.out = d :: ds) :
    resultOf (runFor n s) = .digit d := by
  have hs : s.status = some .stopped := status_stopped_iff.mpr ⟨⟨len, hlen⟩, hf, hmode, by simp [hout]⟩
  rw [runFor_ended (by simp [hs])]
  simp [resultOf, State.runResult, hs, hout]

/-- The FIRST_OUT run takes the FULL run's steps until one appends a digit, and stops there with that digit, which stays
the first one of the FULL run's output. -/
theorem runFor_firstOut_digit {n : Nat} {s t : State} {d : Digit} {ds : List Digit} (hs : s.out = [])
    (hrun : runFor n s = .next t) (ht : t.out = d :: ds) :
    resultOf (runFor n { s with mode := .firstOut }) = .digit d := by
  induction n generalizing s with
  | zero =>
    cases hrun
    simp [hs] at ht
  | succ n ih =>
    obtain ⟨hr, u, hu, hrest⟩ | ⟨-, rfl⟩ := runFor_succ_cases hrun
    · rw [runFor_succ (status_running_withMode _ hs hr) (step_withMode _ hs hr hu)]
      obtain ⟨i, -, he⟩ := step_effect hr hu
      obtain hsame | ⟨d', happ, hfault, hlen⟩ := he.out_cases
      · exact ih (hsame.trans hs) hrest
      · obtain ⟨len, hrunLen, hnone, -, -⟩ := status_running_iff.mp hr
        have hout : u.out = [d'] := by rw [happ, hs, List.nil_append]
        have hfirst : d' = d := by simpa [hout, ht] using runFor_out_prefix hrest
        exact hfirst ▸ runFor_stopped_digit rfl (hlen.trans hrunLen) (hfault.trans hnone) hout
    · simp [hs] at ht

/-- START empties the output, and its checks do not look at the mode (R152). -/
theorem start_withMode {s t : State} {a : Nat} {m : Mode} (m' : Mode) (h : s.start a m = .next t) :
    t.out = [] ∧ s.start a m' = .next { t with mode := m' } := by
  simp only [State.start] at h ⊢
  split_ifs at h ⊢
  cases h
  exact ⟨rfl, rfl⟩

section contracts
variable {fuel a : Nat} {bound : Option Nat} {mode : Mode} {p : Program} {s t : State}

/-- What a run contract went through when it ends in a state: a load, a START and a run. -/
theorem runProgram_cases (h : runProgram fuel bound mode a p s = .next t) :
    ∃ l u, loadAsNeeded bound p s = .next l ∧ l.start a mode = .next u ∧ runFor fuel u = .next t := by
  unfold runProgram at h
  split at h
  · next l hl =>
    split at h
    · next u hu => exact ⟨l, u, hl, hu, h⟩
    · cases h
    · cases h
  · cases h
  · cases h

theorem runProgram_of_start {l u : State} (hl : loadAsNeeded bound p s = .next l) (hu : l.start a mode = .next u) :
    runProgram fuel bound mode a p s = runFor fuel u := by
  simp only [runProgram, hl, hu]

/-- The second half of R155: a digit of the FULL run, however that run goes on, is a digit of the FIRST_OUT run. -/
theorem executeUntilFirstOutput_of_full_digit {d : Digit} {ds : List Digit}
    (h : runProgram fuel bound .full a p s = .next t) (ht : t.out = d :: ds) :
    executeUntilFirstOutput fuel bound a p s = .digit d := by
  obtain ⟨l, u, hl, hu, hrun⟩ := runProgram_cases h
  obtain ⟨hout, hstart⟩ := start_withMode .firstOut hu
  rw [executeUntilFirstOutput, runProgram_of_start hl hstart]
  exact runFor_firstOut_digit hout hrun ht

/-- A sequence is the output of the state the run ended in. -/
theorem execute_sequence {ds : List Digit} (h : execute fuel bound a p s = .sequence ds) :
    ∃ t, runProgram fuel bound .full a p s = .next t ∧ t.out = ds := by
  unfold execute at h
  cases hrun : runProgram fuel bound .full a p s with
  | next t =>
    rw [hrun, resultOf, State.runResult] at h
    refine ⟨t, rfl, ?_⟩
    split at h <;> cases h
    rfl
  | fault f | refused r =>
    rw [hrun] at h
    cases h

end contracts

/-- Settles O46: the FULL run's output, from a sequence or from an unended or faulted run, begins with the digit the
FIRST_OUT run stops at. -/
theorem earlyExitReturnsTheFirstDigit : Obligations.EarlyExitReturnsTheFirstDigit := by
  refine ⟨fun s fuel bound a p d ds h => ?_, fun s t fuel bound a p d ds => executeUntilFirstOutput_of_full_digit⟩
  obtain ⟨t, hrun, hout⟩ := execute_sequence h
  exact executeUntilFirstOutput_of_full_digit hrun hout

end Sys2Proof.Machine
end

section
/-! SUPPORT. The encoding: the opcode map read in both directions (spec/30_encoding.md sections 1, 3, 4 and 6). -/

namespace Sys2Proof.Machine

/-- Settles O21: an instruction is encoded in two digit cells, which the opcode map reads back. -/
theorem decodeOfEncodeIsTheInstruction : Obligations.DecodeOfEncodeIsTheInstruction := by
  intro i rest
  calc decode (encode i ++ rest)
      = .ok (Instr.ofDigits i.opcode i.operand) rest := decode_digits (digit_byte _) (digit_byte _) rest
    _ = .ok i rest := by rw [ofDigits_opcode_operand]

/-- Settles O22: bytes that decode are two digit cells, whose digits are the instruction's opcode and operand. -/
theorem encodeOfDecodeIsTheBytes : Obligations.EncodeOfDecodeIsTheBytes := by
  intro bs rest i h
  obtain ⟨x, y, op, o, rfl, hop, ho, rfl⟩ := decode_ok_cases h
  simp only [encode, opcode_ofDigits, operand_ofDigits, byte_of_digit hop, byte_of_digit ho, List.cons_append,
    List.nil_append]

/-- A word's two table cells are the bytes of its two digits. -/
theorem tableCells_word (i : Instr) : tableCells 8 i.word = encode i := by
  have hcells : ∀ op o : Digit, tableCells 8 (8 * op.toNat + o.toNat) = [Digit.byte op, Digit.byte o] := by decide
  exact hcells i.opcode i.operand

theorem decodeTableWord_of_decode {nbits w : Nat} {i : Instr} {rest : List Byte}
    (h : decode (tableCells nbits w) = .ok i rest) : decodeTableWord nbits w = some i := by
  simp only [decodeTableWord, h]

/-- Reading an instruction's own word from the table gives the instruction. -/
theorem decodeTableWord_word (i : Instr) : decodeTableWord 8 i.word = some i := by
  refine decodeTableWord_of_decode (rest := []) ?_
  rw [tableCells_word]
  simpa using decodeOfEncodeIsTheInstruction i []

/-- Every word below 64 is an instruction's: its upper and its lower three bits are the two digits. -/
theorem exists_word_eq {w : Nat} (h : w < 64) : ∃ i : Instr, i.word = w := by
  refine ⟨Instr.ofDigits (BitVec.ofNat 3 (w / 8)) (BitVec.ofNat 3 (w % 8)), ?_⟩
  rw [Instr.word, opcode_ofDigits, operand_ofDigits, BitVec.toNat_ofNat, BitVec.toNat_ofNat]
  omega

section rejections
variable {x y : Byte} {rest : List Byte}

theorem decode_opcodeOutOfRange_iff :
    decode (x :: y :: rest) = .rejected .opcodeOutOfRange ↔ 8 ≤ x.toNat := by
  rw [← digit_eq_none_iff]
  cases hx : Byte.digit x <;> cases hy : Byte.digit y <;> simp [decode, hx, hy]

theorem decode_operandOutOfRange_iff :
    decode (x :: y :: rest) = .rejected .operandOutOfRange ↔ x.toNat < 8 ∧ 8 ≤ y.toNat := by
  rw [← Nat.not_le, ← digit_eq_none_iff, ← digit_eq_none_iff]
  cases hx : Byte.digit x <;> cases hy : Byte.digit y <;> simp [decode, hx, hy]

/-- Two bytes or more are never too few. -/
theorem decode_cons_cons_ne_truncated : decode (x :: y :: rest) ≠ .rejected .truncated := by
  cases hx : Byte.digit x <;> cases hy : Byte.digit y <;> simp [decode, hx, hy]

end rejections

/-- Settles O26: by the number of bytes, and then by which of the first two holds no digit. -/
theorem decoderRejectsByName : Obligations.DecoderRejectsByName := by
  intro bs
  refine ⟨?_, ?_⟩
  · match bs with
    | [] | [_] => simp [decode]
    | x :: y :: rest => simpa using decode_cons_cons_ne_truncated
  · rintro x y rest rfl
    exact ⟨decode_opcodeOutOfRange_iff, decode_operandOutOfRange_iff⟩

/-- A table byte of 64 or more is no 6-bit word: its first cell is above 7. -/
theorem decodeTableWord_eq_none {w : Nat} (hlow : 64 ≤ w) (hhigh : w < 256) : decodeTableWord 8 w = none := by
  have hcell : 8 ≤ (BitVec.ofNat 8 (min (w % 2 ^ 8 / 8) 255)).toNat := by
    rw [BitVec.toNat_ofNat]
    omega
  have hdec : decode (tableCells 8 w) = .rejected .opcodeOutOfRange := decode_opcodeOutOfRange_iff.mpr hcell
  simp only [decodeTableWord, hdec]

/-- Settles O24: a word below 64 is some instruction's, and the decoder gives that one back, so it is the only one. -/
theorem everySixBitWordIsOneInstruction : Obligations.EverySixBitWordIsOneInstruction := by
  refine ⟨fun w hw => ?_, fun w => decodeTableWord_eq_none⟩
  obtain ⟨i, rfl⟩ := exists_word_eq hw
  refine ⟨i, decodeTableWord_word i, rfl, fun j hj => ?_⟩
  have hsame : some j = some i := by rw [← decodeTableWord_word j, hj, decodeTableWord_word i]
  exact Option.some.inj hsame

/-- A word is its opcode under the mask 0x38 and its operand below it. -/
theorem word_and_mask (i : Instr) : i.word &&& 0x38 = 8 * i.opcode.toNat := by
  have hmask : ∀ op o : Digit, (8 * op.toNat + o.toNat) &&& 0x38 = 8 * op.toNat := by decide
  exact hmask i.opcode i.operand

theorem word_mod_eight (i : Instr) : i.word % 8 = i.operand.toNat := by
  have := i.operand.isLt
  rw [Instr.word]
  omega

/-- Settles O23: each row of the table pairs an instruction over `o` with its opcode's match value. -/
theorem opcodeMapByMatchAndMask : Obligations.OpcodeMapByMatchAndMask := by
  intro o row hrow
  have hform : row.2 = 8 * row.1.opcode.toNat ∧ row.1.operand = o := by
    simp only [List.mem_cons, List.not_mem_nil, or_false] at hrow
    obtain rfl | rfl | rfl | rfl | rfl | rfl | rfl | rfl := hrow <;> exact ⟨rfl, rfl⟩
  obtain ⟨hmatch, hop⟩ := hform
  exact ⟨by rw [word_and_mask, hmatch], by rw [word_mod_eight, hop], decodeTableWord_word row.1⟩

/-- Settles O25: the sample words are the words of the instructions they stand for. -/
theorem sampleWordsDecode : Obligations.SampleWordsDecode :=
  ⟨decodeTableWord_word (.adv 3), decodeTableWord_word (.bxl 7), decodeTableWord_word (.bst 4),
    decodeTableWord_word (.jnz 0), decodeTableWord_word (.bxc 1), decodeTableWord_word (.out 4),
    decodeTableWord_word (.bdv 5), decodeTableWord_word (.cdv 6)⟩

end Sys2Proof.Machine
end

section
/-! SUPPORT. What an instruction writes, reads and leaves alone (spec/10_state.md sections 1 and 4,
spec/60_exceptions.md sections 1 and 4). -/

namespace Sys2Proof.Machine

section effect
variable {s t : State} {i : Instr}

/-- The fields no instruction writes. -/
theorem Effect.frame (h : Effect s i t) :
    t.mode = s.mode ∧ t.loaded = s.loaded ∧ t.runLen = s.runLen ∧ t.mem = s.mem := by
  cases h <;> exact ⟨rfl, rfl, rfl, rfl⟩

/-- The "writes" column of the register table (spec/10_state.md R23). -/
theorem Effect.readReg_of_not_destination (h : Effect s i t) (r : Reg) (hr : destination i ≠ some r) :
    t.readReg r = s.readReg r := by
  cases h with
  | adv => cases r with
    | A => exact absurd rfl hr
    | B | C => rfl
  | bxl | bst | bxc | bdv => cases r with
    | B => exact absurd rfl hr
    | A | C => rfl
  | cdv => cases r with
    | C => exact absurd rfl hr
    | A | B => rfl
  | notTaken | taken | out | combo7 | outOfRange | misaligned => cases r <;> rfl

/-- Only `out` changes the output. -/
theorem Effect.out_eq (h : Effect s i t) (hi : ∀ o, i ≠ .out o) : t.out = s.out := by
  cases h with
  | out => exact absurd rfl (hi _)
  | adv | bxl | bst | notTaken | taken | bxc | bdv | cdv | combo7 | outOfRange | misaligned => rfl

/-- Where the classification of faulting words gives a cause, the effect is the record of that cause; elsewhere the
fault record stays. -/
theorem Effect.fault_cases (h : Effect s i t) :
    (faultCause i s = none ∧ t.fault = s.fault) ∨
      ∃ cause, faultCause i s = some cause ∧ t = raised cause i.operand s := by
  cases h with
  | adv h7 | bst h7 | out h7 | bdv h7 | cdv h7 => exact .inl ⟨if_neg h7, rfl⟩
  | bxl | bxc => exact .inl ⟨rfl, rfl⟩
  | notTaken ha => exact .inl ⟨if_pos ha, rfl⟩
  | taken ha hlen heven =>
    exact .inl ⟨(if_neg ha).trans ((if_neg (Nat.not_le.mpr hlen)).trans (if_neg (by omega))), rfl⟩
  | combo7 hkind hop =>
    refine .inr ⟨.invalidComboOperand, ?_, by rw [hop]⟩
    cases i with
    | adv | bst | out | bdv | cdv => exact if_pos hop
    | bxl | jnz | bxc => cases hkind
  | outOfRange ha hlen => exact .inr ⟨.jumpTargetOutOfRange, (if_neg ha).trans (if_pos hlen), rfl⟩
  | misaligned ha hlen hodd =>
    exact .inr ⟨.jumpTargetMisaligned,
      (if_neg ha).trans ((if_neg (Nat.not_le.mpr hlen)).trans (if_pos hodd)), rfl⟩

/-- A combo operand of 7 raises InvalidComboOperand and does nothing else. -/
theorem Effect.combo_seven (h : Effect s i t) (hkind : i.operandKind = .combo) (hop : i.operand = 7) :
    t = raised .invalidComboOperand 7 s :=
  Host.Outcome.next.inj (h.exec_eq.symm.trans (exec_combo_seven s hkind hop))

end effect

/-- An instruction other than `jnz` faults on a combo operand 7 alone. -/
theorem faultCause_eq_none {s : State} {i : Instr} (hjnz : ∀ o, i ≠ .jnz o)
    (h7 : ¬(i.operandKind = .combo ∧ i.operand = 7)) : faultCause i s = none := by
  cases i with
  | adv | bst | out | bdv | cdv => exact if_neg fun ho => h7 ⟨rfl, ho⟩
  | bxl | bxc => rfl
  | jnz o => exact absurd rfl (hjnz o)

theorem Effect.fault_eq {s t : State} {i : Instr} (h : Effect s i t) (hnone : faultCause i s = none) :
    t.fault = s.fault := by
  obtain ⟨-, hf⟩ | ⟨cause, hsome, -⟩ := h.fault_cases
  · exact hf
  · cases hnone.symm.trans hsome

/-- Settles O13: `Effect.fault_cases` says both halves. -/
theorem faultRecordIsPreciseAndComplete : Obligations.FaultRecordIsPreciseAndComplete := by
  intro i s
  obtain ⟨t, ht⟩ := exec_next i s
  have he := exec_effect ht
  refine ⟨fun cause hcause => ?_, fun hnone => ⟨t, ht, he.fault_eq hnone⟩⟩
  obtain ⟨hnone, -⟩ | ⟨cause', hcause', rfl⟩ := he.fault_cases
  · cases hnone.symm.trans hcause
  · cases hcause.symm.trans hcause'
    exact ht

/-- Settles O14: the frame of `Effect`, with the raise of a combo operand 7 apart. -/
theorem frameOfRegisterInstructions : Obligations.FrameOfRegisterInstructions := by
  intro i s t hi ht
  have he := exec_effect ht
  obtain ⟨hmode, hloaded, hrun, hmem⟩ := he.frame
  refine ⟨he.readReg_of_not_destination, he.out_eq fun o => (hi o).2, hmode, hloaded, hrun, by rw [hmem],
    fun k => by rw [hmem], fun h7 => he.fault_eq (faultCause_eq_none (fun o => (hi o).1) h7), ?_⟩
  rintro ⟨hkind, hop⟩
  rw [he.combo_seven hkind hop]
  exact ⟨fun r => by cases r <;> rfl, rfl⟩

/-- A `jnz` that changes the fault record was taken to a target at or above LEN or odd, and leaves pc. -/
theorem Effect.jnz_fault {s t : State} {o : Digit} (h : Effect s (.jnz o) t) (hf : t.fault ≠ s.fault) :
    s.a ≠ 0 ∧ (s.mem.length ≤ o.toNat ∨ o.toNat % 2 = 1) ∧ t.pc = s.pc := by
  cases h with
  | notTaken | taken => exact absurd rfl hf
  | combo7 hkind => cases hkind
  | outOfRange ha hlen => exact ⟨ha, .inl hlen, rfl⟩
  | misaligned ha _ hodd => exact ⟨ha, .inr hodd, rfl⟩

/-- Settles O15: `jnz` has no destination and appends nothing. -/
theorem frameOfJnz : Obligations.FrameOfJnz := by
  intro o s t ht
  have he := exec_effect ht
  obtain ⟨hmode, hloaded, hrun, hmem⟩ := he.frame
  exact ⟨fun r => he.readReg_of_not_destination r nofun, he.out_eq nofun, hmode, hloaded, hrun, by rw [hmem],
    fun k => by rw [hmem], he.jnz_fault⟩

/-- An `out` whose operand is not 7 appends one digit. -/
theorem Effect.out_append {s t : State} {o : Digit} (h : Effect s (.out o) t) (h7 : o ≠ 7) :
    t.fault = s.fault ∧ ∃ d, t.out = s.out ++ [d] := by
  cases h with
  | out => exact ⟨rfl, _, rfl⟩
  | combo7 _ hop => exact absurd hop h7

/-- Settles O16: `out` has no destination; with operand 7 it is a raise. -/
theorem frameOfOut : Obligations.FrameOfOut := by
  intro o s t ht
  have he := exec_effect ht
  obtain ⟨hmode, hloaded, hrun, hmem⟩ := he.frame
  refine ⟨fun r => he.readReg_of_not_destination r nofun, hmode, hloaded, hrun, by rw [hmem], fun k => by rw [hmem],
    he.out_append, fun h7 => ?_⟩
  rw [he.combo_seven rfl h7]
  rfl

/-- Settles O20: no effect writes the mode, and every effect is one in either mode. -/
theorem modeIsInvisibleToInstructions : Obligations.ModeIsInvisibleToInstructions := by
  intro i s t m ht
  have he := exec_effect ht
  exact ⟨he.frame.1, (he.withMode m).exec_eq⟩

/-- Settles O6: `bxc` has one case, whatever its operand. -/
theorem bxcXorsCIntoB : Obligations.BxcXorsCIntoB := fun _ _ => ⟨rfl, Effect.bxc.exec_eq⟩

/-- Settles O8: each branch is a case of `Effect`. -/
theorem jnzFollowsItsFourBranches : Obligations.JnzFollowsItsFourBranches := fun _ _ =>
  ⟨rfl, fun ha => (Effect.notTaken ha).exec_eq, fun ha hlen heven => (Effect.taken ha hlen heven).exec_eq,
    fun ha hlen => (Effect.outOfRange ha hlen).exec_eq,
    fun ha hlen hodd => (Effect.misaligned ha hlen hodd).exec_eq⟩

end Sys2Proof.Machine
end

section
/-! SUPPORT. The registers an instruction depends on (the "reads" columns of spec/10_state.md R23). -/

namespace Sys2Proof.Machine

/-- Two states hold the same values in the registers of a list. -/
def AgreeOn (rs : List Reg) (s s' : State) : Prop := ∀ r ∈ rs, s'.readReg r = s.readReg r

/-- The combo value depends on no register but the one `comboReads` names. -/
theorem combo_eq_of_agreeOn {s s' : State} {o : Digit} (h : AgreeOn (comboReads o) s s') : combo s' o = combo s o := by
  have hrows : ∀ o : Digit, o.toNat < 4 ∨ o = 4 ∨ o = 5 ∨ o = 6 ∨ o = 7 := by decide
  obtain hlt | rfl | rfl | rfl | rfl := hrows o
  · rw [combo_of_lt_four s hlt, combo_of_lt_four s' hlt]
  · exact congrArg some (h .A (by decide))
  · exact congrArg some (h .B (by decide))
  · exact congrArg some (h .C (by decide))
  · rfl

/-- A shift reads A and the combo operand's register. -/
theorem shift_of_agreeOn {s s' : State} {o : Digit} {v : Word} (h : AgreeOn (.A :: comboReads o) s s')
    (hv : combo s o = some v) : combo s' o = some v ∧ shr s'.a v = shr s.a v := by
  obtain ⟨ha, hcombo⟩ := List.forall_mem_cons.mp h
  exact ⟨(combo_eq_of_agreeOn hcombo).trans hv, congrArg (shr · v) ha⟩

section otherRegisters
variable {s t : State} {i : Instr} {x y z : Word}

/-- What two executions of an instruction have in common where the states agree on the registers it reads. -/
structure SameResult (i : Instr) (t t' : State) : Prop where
  pc      : t'.pc = t.pc
  out     : t'.out = t.out
  fault   : t'.fault = t.fault
  written : ¬(i.operandKind = .combo ∧ i.operand = 7) → ∀ r, destination i = some r → t'.readReg r = t.readReg r

/-- An effect happens alike whatever the registers hold that the instruction does not read. -/
theorem Effect.of_agreeOn (h : Effect s i t) (hreads : AgreeOn (registersRead i) s { s with a := x, b := y, c := z }) :
    ∃ t', Effect { s with a := x, b := y, c := z } i t' ∧ SameResult i t t' := by
  cases h with
  | adv h7 hv =>
    obtain ⟨hv', hshr⟩ := shift_of_agreeOn hreads hv
    refine ⟨_, .adv h7 hv', rfl, rfl, rfl, ?_⟩
    rintro - _ ⟨⟩
    exact hshr
  | bdv h7 hv =>
    obtain ⟨hv', hshr⟩ := shift_of_agreeOn hreads hv
    refine ⟨_, .bdv h7 hv', rfl, rfl, rfl, ?_⟩
    rintro - _ ⟨⟩
    exact hshr
  | cdv h7 hv =>
    obtain ⟨hv', hshr⟩ := shift_of_agreeOn hreads hv
    refine ⟨_, .cdv h7 hv', rfl, rfl, rfl, ?_⟩
    rintro - _ ⟨⟩
    exact hshr
  | bxl =>
    refine ⟨_, .bxl, rfl, rfl, rfl, ?_⟩
    rintro - _ ⟨⟩
    exact congrArg (· ^^^ _) (hreads .B List.mem_cons_self)
  | bxc =>
    refine ⟨_, .bxc, rfl, rfl, rfl, ?_⟩
    rintro - _ ⟨⟩
    exact congrArg₂ (· ^^^ ·) (hreads .B List.mem_cons_self) (hreads .C (.tail _ List.mem_cons_self))
  | bst h7 hv =>
    refine ⟨_, .bst h7 ((combo_eq_of_agreeOn hreads).trans hv), rfl, rfl, rfl, ?_⟩
    rintro - _ ⟨⟩
    rfl
  | out h7 hv => exact ⟨_, .out h7 ((combo_eq_of_agreeOn hreads).trans hv), rfl, rfl, rfl, nofun⟩
  | notTaken ha => exact ⟨_, .notTaken ((hreads .A List.mem_cons_self).trans ha), rfl, rfl, rfl, nofun⟩
  | taken ha hlen heven =>
    exact ⟨_, .taken (ne_of_eq_of_ne (hreads .A List.mem_cons_self) ha) hlen heven, rfl, rfl, rfl, nofun⟩
  | outOfRange ha hlen =>
    exact ⟨_, .outOfRange (ne_of_eq_of_ne (hreads .A List.mem_cons_self) ha) hlen, rfl, rfl, rfl, nofun⟩
  | misaligned ha hlen hodd =>
    exact ⟨_, .misaligned (ne_of_eq_of_ne (hreads .A List.mem_cons_self) ha) hlen hodd, rfl, rfl, rfl, nofun⟩
  | combo7 hkind hop => exact ⟨_, .combo7 hkind hop, rfl, rfl, rfl, fun h7 => absurd ⟨hkind, hop⟩ h7⟩

end otherRegisters

/-- Settles O17: the "writes" column is `Effect.readReg_of_not_destination`, the "reads" columns are
`Effect.of_agreeOn`. -/
theorem registersReadAndWrittenByTable : Obligations.RegistersReadAndWrittenByTable := by
  intro i s t ht
  have he := exec_effect ht
  refine ⟨he.readReg_of_not_destination, fun x y z t' hreads ht' => ?_⟩
  obtain ⟨u, hu, hpc, hout, hfault, hwritten⟩ := he.of_agreeOn hreads
  cases ht'.symm.trans hu.exec_eq
  exact ⟨hpc, hout, hfault, hwritten⟩

end Sys2Proof.Machine
end

section
/-! SUPPORT. The arithmetic of the shift and of the exclusive or (spec/40_step_and_operands.md section 6,
spec/42_bitwise.md). -/

namespace Sys2Proof.Machine

theorem shr_le (a v : Word) : (shr a v).toNat ≤ a.toNat := by
  rw [shr_toNat]
  exact Nat.div_le_self _ _

/-- The shift is logical: bit k of the result is bit k + v of the argument. -/
theorem shr_getLsbD (a v : Word) (k : Nat) : (shr a v).getLsbD k = a.getLsbD (k + v.toNat) := by
  simp only [BitVec.getLsbD, shr_toNat, Nat.testBit_div_two_pow]

/-- Counts add up, without wrapping. -/
theorem shr_shr_toNat (a u v : Word) : (shr (shr a u) v).toNat = a.toNat / 2 ^ (u.toNat + v.toNat) := by
  rw [shr_toNat, shr_toNat, Nat.div_div_eq_div_mul, Nat.pow_add]

/-- Settles O18: the laws of the family, from the floor division `shr_toNat`. -/
theorem shiftIsFloorDivision : Obligations.ShiftIsFloorDivision := by
  intro a u v
  have hzero : shr a 0 = a := BitVec.eq_of_toNat_eq ((shr_toNat a 0).trans (Nat.div_one _))
  have hlarge (h : 64 ≤ v.toNat) : shr a v = 0 := if_neg (Nat.not_lt.mpr h)
  exact ⟨shr_toNat a v, shr_le a v, shr_getLsbD a v, hzero, hlarge, shr_shr_toNat a u v⟩

/-- An exclusive or with a literal changes the low three bits alone. -/
theorem xor_literalWord_div_eight (b : Word) (o : Digit) : (b ^^^ literalWord o).toNat / 8 = b.toNat / 8 := by
  have hlow : o.toNat / 2 ^ 3 = 0 := Nat.div_eq_of_lt o.isLt
  calc (b ^^^ literalWord o).toNat / 8
      = (b.toNat ^^^ o.toNat) / 2 ^ 3 := by rw [BitVec.toNat_xor, literalWord_toNat]
    _ = b.toNat / 2 ^ 3 ^^^ o.toNat / 2 ^ 3 := Nat.xor_div_two_pow
    _ = b.toNat / 8 := by rw [hlow, Nat.xor_zero]

/-- Settles O19: the second exclusive or meets the same operand, since neither instruction writes C. -/
theorem xorInstructionsUndoThemselves : Obligations.XorInstructionsUndoThemselves := by
  rintro i s t u (⟨o, rfl⟩ | ⟨o, rfl⟩) ht hu
  · cases ht
    cases hu
    refine ⟨?_, fun _ => xor_literalWord_div_eight s.b o⟩
    exact congrArg (fun b => { s with b := b, pc := s.pc + 4 }) (xor_cancel_right s.b (literalWord o))
  · cases ht
    cases hu
    refine ⟨?_, nofun⟩
    exact congrArg (fun b => { s with b := b, pc := s.pc + 4 }) (xor_cancel_right s.b s.c)

end Sys2Proof.Machine
end

section
/-! SUPPORT. The step: the status that decides it, and what it keeps (spec/10_state.md sections 4 and 7,
spec/40_step_and_operands.md section 1). -/

namespace Sys2Proof.Machine

/-- Settles O27: two cells that decode are what the fetch of the step reads. -/
theorem stepRunsTheDecodedInstruction : Obligations.StepRunsTheDecodedInstruction := by
  intro s x y i hs hx hy hdec
  have hfetch : fetch s = .ok i := by simp only [fetch, hx, hy, hdec]
  exact step_running hs hfetch

theorem status_none_iff {s : State} : s.status = none ↔ s.runLen = none := Option.map_eq_none_iff

/-- Settles O29: each clause is the condition of one status. -/
theorem statusByPriority : Obligations.StatusByPriority := by
  refine fun s => ⟨status_none_iff, fun n hn => ⟨fun hf => ?_, fun hf hstop => ?_, fun hf hstop hpc => ?_,
    fun hf hstop hpc => ?_⟩⟩
  · exact status_faulted_iff.mpr ⟨⟨n, hn⟩, Option.ne_none_iff_exists'.mp hf⟩
  · exact status_stopped_iff.mpr ⟨⟨n, hn⟩, hf, hstop⟩
  · exact status_halted_iff.mpr ⟨n, hn, hf, hstop, hpc⟩
  · exact status_running_iff.mpr ⟨n, hn, hf, hstop, hpc⟩

/-- A step in Faulted reports the record. -/
theorem step_faulted {s : State} (hs : s.status = some .faulted) :
    ∃ r, s.fault = some r ∧ step s = .fault (.malformedProgram r.cause r.fpc r.fop) := by
  obtain ⟨-, r, hr⟩ := status_faulted_iff.mp hs
  exact ⟨r, hr, by simp only [step, hs, reportFault, hr]⟩

/-- Before the first START, in Halted and in Stopped a step leaves the state. -/
theorem step_idle {s : State} (hs : s.status = none ∨ s.status = some .halted ∨ s.status = some .stopped) :
    step s = .next s := by
  obtain hs | hs | hs := hs <;> simp only [step, hs]

/-- Settles O30: the statuses other than Running are those of `step_idle` and `step_faulted`. -/
theorem noStepOutsideRunning : Obligations.NoStepOutsideRunning := fun _ => ⟨step_idle, step_faulted⟩

section step
variable {s t : State}

/-- Everything a step that answers a next state can be: the effect of the fetched instruction, or a stay. -/
theorem step_effect_cases (h : step s = .next t) :
    (s.status = some .running ∧ ∃ i, fetch s = .ok i ∧ Effect s i t) ∨ (s.status ≠ some .running ∧ t = s) := by
  obtain ⟨hs, i, hi, he⟩ | hstay := step_cases h
  · exact .inl ⟨hs, i, hi, exec_effect he⟩
  · exact .inr hstay

/-- The fields no step writes. -/
theorem step_frame (h : step s = .next t) :
    t.mode = s.mode ∧ t.loaded = s.loaded ∧ t.runLen = s.runLen ∧ t.mem = s.mem := by
  obtain ⟨-, i, -, he⟩ | ⟨-, rfl⟩ := step_effect_cases h
  · exact he.frame
  · exact ⟨rfl, rfl, rfl, rfl⟩

/-- A register that a step changes is the destination of the fetched instruction. -/
theorem step_changes_destination {r : Reg} (h : step s = .next t) (hr : t.readReg r ≠ s.readReg r) :
    ∃ i, fetch s = .ok i ∧ destination i = some r := by
  obtain ⟨-, i, hi, he⟩ | ⟨-, rfl⟩ := step_effect_cases h
  · exact ⟨i, hi, not_not.mp fun hdest => hr (he.readReg_of_not_destination r hdest)⟩
  · exact absurd rfl hr

end step

/-- The checks of START and what it leaves. -/
theorem start_cases {s t : State} {a : Nat} {m : Mode} (h : s.start a m = .next t) :
    s.status ≠ some .running ∧ s.loaded = true ∧ a < 2 ^ 64 ∧
      t = { s with a := BitVec.ofNat 64 a, b := 0, c := 0, pc := 0, out := [], fault := none, mode := m,
                   runLen := some s.mem.length } := by
  simp only [State.start] at h
  split_ifs at h with hs hloaded ha
  cases h
  exact ⟨hs, by simpa using hloaded, Nat.not_le.mp ha, rfl⟩

/-- Settles O31: the frame of a step, and the first check of LOAD. -/
theorem programIsImmutableDuringARun : Obligations.ProgramIsImmutableDuringARun := by
  refine ⟨fun s t h => ?_, fun s bound p hs => if_pos hs, fun s t a m h => ?_⟩
  · obtain ⟨-, hloaded, -, hmem⟩ := step_frame h
    exact ⟨hmem, hloaded, fun k => by rw [hmem]⟩
  · obtain ⟨-, -, -, rfl⟩ := start_cases h
    exact ⟨rfl, rfl⟩

/-- Only `adv` writes A, and a shift never exceeds its argument. -/
theorem Effect.a_le {s t : State} {i : Instr} (h : Effect s i t) : t.a.toNat ≤ s.a.toNat := by
  cases h with
  | adv => exact shr_le _ _
  | bxl | bst | notTaken | taken | bxc | out | bdv | cdv | combo7 | outOfRange | misaligned => exact Nat.le_refl _

/-- Settles O32: a step is an effect, under which A never increases, or a stay. -/
theorem accumulatorNeverIncreases : Obligations.AccumulatorNeverIncreases := by
  intro s t h
  obtain ⟨-, i, -, he⟩ | ⟨-, rfl⟩ := step_effect_cases h
  · exact he.a_le
  · exact Nat.le_refl _

/-- The output changes exactly by an `out` whose operand is not 7. -/
theorem Effect.out_ne_iff {s t : State} {i : Instr} (h : Effect s i t) : t.out ≠ s.out ↔ ∃ o, o ≠ 7 ∧ i = .out o := by
  refine ⟨fun hne => ?_, ?_⟩
  · cases h with
    | out h7 => exact ⟨_, h7, rfl⟩
    | adv | bxl | bst | notTaken | taken | bxc | bdv | cdv | combo7 | outOfRange | misaligned => exact absurd rfl hne
  · rintro ⟨o, h7, rfl⟩
    obtain ⟨-, d, hd⟩ := h.out_append h7
    simp [hd]

/-- Settles O33: a step that stays adds no digit, and one that runs an instruction adds what its effect adds. -/
theorem outputOnlyGrows : Obligations.OutputOnlyGrows := by
  intro s t h
  obtain ⟨hs, i, hi, he⟩ | ⟨hs, rfl⟩ := step_effect_cases h
  · refine ⟨?_, ?_⟩
    · obtain hsame | ⟨d, happ, -, -⟩ := he.out_cases
      · exact ⟨[], by simpa using hsame, by simp⟩
      · exact ⟨[d], happ, by simp⟩
    · rw [he.out_ne_iff, hi]
      simp [hs]
  · exact ⟨⟨[], by simp⟩, by simp [hs]⟩

/-- Settles O34: the instructions with destination A, C and B are those the statement names. -/
theorem onlyTheirWritersChangeRegisters : Obligations.OnlyTheirWritersChangeRegisters := by
  intro s t h
  refine ⟨fun ha => ?_, fun hc => ?_, fun hb => ?_⟩
  · obtain ⟨i, hi, hdest⟩ := step_changes_destination (r := .A) h ha
    cases i <;> cases hdest
    exact ⟨_, hi⟩
  · obtain ⟨i, hi, hdest⟩ := step_changes_destination (r := .C) h hc
    cases i <;> cases hdest
    exact ⟨_, hi⟩
  · obtain ⟨i, hi, hdest⟩ := step_changes_destination (r := .B) h hb
    cases i <;> cases hdest
    · exact ⟨_, .inl hi⟩
    · exact ⟨_, .inr (.inl hi)⟩
    · exact ⟨_, .inr (.inr (.inl hi))⟩
    · exact ⟨_, .inr (.inr (.inr hi))⟩

/-- A run whose step leads back to the same state never leaves it. -/
theorem runFor_fixed {s : State} (hs : s.status = some .running) (hstep : step s = .next s) (n : Nat) :
    runFor n s = .next s := by
  induction n with
  | zero => rfl
  | succ n ih => rw [runFor_succ hs hstep, ih]

/-- Settles O35: the taken jump goes to where pc is. -/
theorem jnzToItselfHangs : Obligations.JnzToItselfHangs := by
  intro s o hs hfetch hpc ha heven hlen n
  have hself : ({ s with pc := o.toNat } : State) = s := by rw [← hpc]
  have hstep : step s = .next s :=
    calc step s = exec (.jnz o) s := step_running hs hfetch
      _ = .next { s with pc := o.toNat } := (Effect.taken ha hlen heven).exec_eq
      _ = .next s := by rw [hself]
  exact runFor_fixed hs hstep n

end Sys2Proof.Machine
end

section
/-! SUPPORT. The invariant of the state: it holds at reset, every step and transaction keeps it, and it makes every
reachable state safe (spec/10_state.md section 7, spec/70_reset_and_hazards.md section 5). -/

namespace Sys2Proof.Machine

/-- A running machine holds no digit of a FIRST_OUT run, so an effect leaves at most one. -/
theorem Effect.earlyStop {s t : State} {i : Instr} (h : Effect s i t) (hs : s.status = some .running)
    (hmode : t.mode = .firstOut) : t.out.length ≤ 1 := by
  obtain ⟨-, -, -, hstop, -⟩ := status_running_iff.mp hs
  have hempty : s.out.length = 0 := by
    have := not_and.mp hstop (h.frame.1.symm.trans hmode)
    omega
  obtain hsame | ⟨d, happ, -, -⟩ := h.out_cases
  · rw [hsame, hempty]
    exact Nat.zero_le 1
  · simp [happ, hempty]

section runningEffect
variable {s t : State} {i : Instr}

theorem Effect.pc_even (h : Effect s i t) (heven : s.pc % 2 = 0) : t.pc % 2 = 0 := by
  cases h with
  | taken _ _ htarget => exact htarget
  | adv | bxl | bst | notTaken | bxc | out | bdv | cdv => exact (Nat.add_mod_right s.pc 2).trans heven
  | combo7 | outOfRange | misaligned => exact heven

/-- Even positions below an even LEN leave room for the advance. -/
theorem Effect.pc_le (h : Effect s i t) (heven : s.pc % 2 = 0) (hlen : s.mem.length % 2 = 0)
    (hpc : s.pc < s.mem.length) : t.pc ≤ s.mem.length := by
  have hadvance : s.pc + 2 ≤ s.mem.length := by omega
  cases h with
  | taken _ htarget => exact Nat.le_of_lt htarget
  | adv | bxl | bst | notTaken | bxc | out | bdv | cdv => exact hadvance
  | combo7 | outOfRange | misaligned => exact Nat.le_of_lt hpc

/-- A record that an effect newly writes says where and why it was raised. -/
theorem Effect.record_fits {r : FaultRecord} (h : Effect s i t) (hs : s.fault = none) (hpc : s.pc < s.mem.length)
    (hr : t.fault = some r) : r.Fits t.pc s.mem.length := by
  cases h with
  | adv | bxl | bst | notTaken | taken | bxc | out | bdv | cdv => cases hs.symm.trans hr
  | combo7 =>
    cases hr
    exact ⟨rfl, hpc, fun _ => rfl, nofun, nofun⟩
  | outOfRange _ hlen =>
    cases hr
    exact ⟨rfl, hpc, nofun, fun _ => hlen, nofun⟩
  | misaligned _ hlen hodd =>
    cases hr
    exact ⟨rfl, hpc, nofun, nofun, fun _ => ⟨hlen, hodd⟩⟩

/-- The status Running over a state that meets the invariant: R31's conditions, with the loaded program's LEN. -/
theorem State.Inv.running (hinv : s.Inv) (hs : s.status = some .running) :
    s.runLen = some s.mem.length ∧ s.fault = none ∧ s.pc < s.mem.length := by
  have hrun := hinv.runsLoaded hs
  obtain ⟨n, hn, hf, -, hpc⟩ := status_running_iff.mp hs
  cases hrun.symm.trans hn
  exact ⟨hrun, hf, hpc⟩

/-- What a running machine does keeps the invariant. -/
theorem Effect.keeps_inv (h : Effect s i t) (hinv : s.Inv) (hs : s.status = some .running) : t.Inv := by
  obtain ⟨hrun, hf, hpc⟩ := hinv.running hs
  obtain ⟨hmode, hloaded, hrunLen, hmem⟩ := h.frame
  have hrun' : t.runLen = some s.mem.length := hrunLen.trans hrun
  have hlen := hinv.program.1
  exact {
    canonical := hmem ▸ hinv.canonical
    program := hmem ▸ hinv.program
    unloaded := fun hl => by rw [hmem, hrunLen]; exact hinv.unloaded (hloaded.symm.trans hl)
    lenEven := fun n hn => hinv.lenEven n (hrunLen.symm.trans hn)
    pcEven := h.pc_even hinv.pcEven
    pcInProgram := fun n hn => by
      cases hrun'.symm.trans hn
      exact h.pc_le hinv.pcEven hlen hpc
    runsLoaded := fun _ => by rw [hrun', hmem]
    earlyStop := h.earlyStop hs
    beforeStart := fun hnone => by cases hrun'.symm.trans hnone
    faultFits := fun r n hr hn => by
      cases hrun'.symm.trans hn
      exact h.record_fits hf hpc hr }

end runningEffect

/-- Settles O37: a step is the effect of an instruction of a running machine, or a stay. -/
theorem stepKeepsTheInvariant : Obligations.StepKeepsTheInvariant := by
  intro s t hinv h
  obtain ⟨hs, i, -, he⟩ | ⟨-, rfl⟩ := step_effect_cases h
  · exact he.keeps_inv hinv hs
  · exact hinv

/-- Settles O36: the memory is empty, no run has begun, and nothing is output or recorded. -/
theorem resetMeetsTheInvariant : Obligations.ResetMeetsTheInvariant where
  canonical := reset_wf
  program := ⟨rfl, nofun⟩
  unloaded := fun _ => ⟨rfl, rfl⟩
  lenEven := nofun
  pcEven := rfl
  pcInProgram := nofun
  runsLoaded := nofun
  earlyStop := nofun
  beforeStart := fun _ => rfl
  faultFits := nofun

/-- The checks of LOAD and what it leaves. -/
theorem load_cases {s t : State} {bound : Option Nat} {p : Program} (h : s.load bound p = .next t) :
    s.status ≠ some .running ∧ p.wellFormed = true ∧ t = { s with mem := Memory.ofProgram p, loaded := true } := by
  simp only [State.load] at h
  split_ifs at h with hs heven hcells hbound
  cases h
  simp only [Bool.not_eq_true', Bool.not_eq_false] at heven hcells
  exact ⟨hs, by rw [Program.wellFormed, heven, hcells, Bool.and_true], rfl⟩

/-- Settles O38: an accepted program is well-formed, and LOAD leaves the status and the run alone. -/
theorem loadKeepsTheInvariant : Obligations.LoadKeepsTheInvariant := by
  intro s t bound p hinv h
  obtain ⟨hs, hp, rfl⟩ := load_cases h
  exact { hinv with
    canonical := ofProgram_wf p
    program := holdsProgram_ofProgram hp
    unloaded := nofun
    runsLoaded := fun hrunning => absurd hrunning hs }

/-- Settles O39: START begins a run over the loaded program, at pc 0, with no output and no fault. -/
theorem startKeepsTheInvariant : Obligations.StartKeepsTheInvariant := by
  intro s t a m hinv h
  obtain ⟨-, hloaded, -, rfl⟩ := start_cases h
  exact {
    canonical := hinv.canonical
    program := hinv.program
    unloaded := fun hunloaded => by cases hloaded.symm.trans hunloaded
    lenEven := fun n hn => by
      cases hn
      exact hinv.program.1
    pcEven := rfl
    pcInProgram := fun n _ => Nat.zero_le n
    runsLoaded := fun _ => rfl
    earlyStop := fun _ => Nat.zero_le 1
    beforeStart := nofun
    faultFits := nofun }

/-- A running machine that meets the invariant fetches an instruction and answers a next state. -/
theorem State.Inv.step_next {s : State} (hinv : s.Inv) (hs : s.status = some .running) :
    ∃ i t, fetch s = .ok i ∧ step s = .next t := by
  obtain ⟨-, -, hpc⟩ := hinv.running hs
  have hpair : s.pc + 1 < s.mem.length := by
    have := hinv.pcEven
    have := hinv.program.1
    omega
  obtain ⟨i, hi⟩ := fetch_in_program hinv.canonical hinv.program hpair
  obtain ⟨t, ht⟩ := exec_next i s
  exact ⟨i, t, hi, (step_running hs hi).trans ht⟩

/-- Settles O40: by the status. -/
theorem stepNeverGetsStuck : Obligations.StepNeverGetsStuck := by
  intro s hinv
  match hs : s.status with
  | some .running =>
    obtain ⟨-, t, -, ht⟩ := hinv.step_next hs
    exact .inl ⟨t, ht⟩
  | some .faulted => exact .inr ⟨rfl, step_faulted hs⟩
  | none => exact .inl ⟨s, step_idle (.inl hs)⟩
  | some .halted => exact .inl ⟨s, step_idle (.inr (.inl hs))⟩
  | some .stopped => exact .inl ⟨s, step_idle (.inr (.inr hs))⟩

/-- The invariant holds along every history. -/
theorem Reachable.inv {s : State} (h : Reachable s) : s.Inv := by
  induction h with
  | reset => exact resetMeetsTheInvariant
  | load bound p _ hload ih => exact loadKeepsTheInvariant _ _ bound p ih hload
  | start a m _ hstart ih => exact startKeepsTheInvariant _ _ a m ih hstart
  | step _ hstep ih => exact stepKeepsTheInvariant _ _ ih hstep

/-- Settles O41: `Reachable.inv`, and the progress of a running machine under the invariant. -/
theorem reachableStatesAreSafe : Obligations.ReachableStatesAreSafe := fun _ h => ⟨h.inv, h.inv.step_next⟩

/-- Settles O42: the status gives one bound of pc or of the output's length, the invariant the other. -/
theorem whereRunsEnd : Obligations.WhereRunsEnd := by
  refine fun s hinv => ⟨fun hs => ?_, fun hs => ?_, fun hs => ?_⟩
  · obtain ⟨n, hn, -, -, hpc⟩ := status_halted_iff.mp hs
    rw [hn, Nat.le_antisymm hpc (hinv.pcInProgram n hn)]
  · obtain ⟨-, -, hmode, hout⟩ := status_stopped_iff.mp hs
    exact List.length_eq_one_iff.mp (Nat.le_antisymm (hinv.earlyStop hmode) hout)
  · obtain ⟨⟨n, hn⟩, r, hr⟩ := status_faulted_iff.mp hs
    have hfits := hinv.faultFits r n hr hn
    exact ⟨r, n, hr, hn, hfits.atInstruction, hfits.atInstruction ▸ hfits.inProgram⟩

end Sys2Proof.Machine
end

section
/-! SUPPORT. The host's transactions LOAD, START and RESULT (spec/50_host_interface.md section 1). -/

namespace Sys2Proof.Machine

theorem evenLength_iff {p : Program} : p.evenLength = true ↔ p.length % 2 = 0 := beq_iff_eq

theorem cellsInRange_iff {p : Program} : p.cellsInRange = true ↔ ∀ n ∈ p, n ≤ 7 := by
  simp only [Program.cellsInRange, List.all_eq_true, decide_eq_true_eq, Nat.lt_succ_iff]

/-- A cell of 0 to 7 survives being held in a byte. -/
theorem read_ofProgram_toNat {p : Program} (hcells : ∀ n ∈ p, n ≤ 7) (k : Nat) :
    (Memory.read (Memory.ofProgram p) k).map BitVec.toNat = p[k]? := by
  rw [read_ofProgram, Option.map_map]
  cases hk : p[k]? with
  | none => rfl
  | some n =>
    have hn := hcells n (List.mem_of_getElem? hk)
    simp only [Option.map_some, Function.comp_apply, BitVec.toNat_ofNat, Option.some.injEq]
    omega

section load
variable {s : State} {bound : Option Nat} {p : Program}

theorem load_oddLength (hs : s.status ≠ some .running) (hodd : p.evenLength = false) :
    s.load bound p = .refused .oddLength := by
  simp [State.load, hs, hodd]

theorem load_cellOutOfRange (hs : s.status ≠ some .running) (heven : p.evenLength = true)
    (hcells : p.cellsInRange = false) : s.load bound p = .refused .cellOutOfRange := by
  simp [State.load, hs, heven, hcells]

theorem load_programTooLong (hs : s.status ≠ some .running) (heven : p.evenLength = true)
    (hcells : p.cellsInRange = true) (hbound : bound.any (· < p.length) = true) :
    s.load bound p = .refused .programTooLong := by
  simp only [State.load, hs, heven, hcells, hbound, if_true, if_false, Bool.not_true, Bool.false_eq_true]

theorem load_accepted (hs : s.status ≠ some .running) (heven : p.evenLength = true)
    (hcells : p.cellsInRange = true) (hbound : bound.any (· < p.length) = false) :
    s.load bound p = .next { s with mem := Memory.ofProgram p, loaded := true } := by
  simp only [State.load, hs, heven, hcells, hbound, if_false, Bool.not_true, Bool.false_eq_true]

end load

/-- Settles O43: the checks in their order, and the memory an accepted LOAD leaves. -/
theorem loadAcceptsExactlyWellFormedPrograms : Obligations.LoadAcceptsExactlyWellFormedPrograms := by
  refine fun s bound p => ⟨fun hs => if_pos hs, fun hs hodd => ?_, fun hs heven hcell => ?_,
    fun hs heven hcells hbound => ?_, fun hs heven hcells hbound => ?_⟩
  · refine load_oddLength hs (Bool.eq_false_iff.mpr fun heven => ?_)
    have := evenLength_iff.mp heven
    omega
  · refine load_cellOutOfRange hs (evenLength_iff.mpr heven) (Bool.eq_false_iff.mpr fun hcells => ?_)
    obtain ⟨n, hn, hlarge⟩ := hcell
    exact absurd (cellsInRange_iff.mp hcells n hn) (Nat.not_le.mpr hlarge)
  · obtain ⟨m, rfl, hm⟩ := hbound
    exact load_programTooLong hs (evenLength_iff.mpr heven) (cellsInRange_iff.mpr hcells) (decide_eq_true hm)
  · refine ⟨_, load_accepted hs (evenLength_iff.mpr heven) (cellsInRange_iff.mpr hcells) ?_, rfl,
      ofProgram_length p, rfl, read_ofProgram_toNat hcells⟩
    cases bound with
    | none => rfl
    | some m => exact decide_eq_false (Nat.not_lt.mpr (hbound m rfl))

section start
variable {s : State} {a : Nat} {m : Mode}

theorem start_noProgram (hs : s.status ≠ some .running) (hloaded : s.loaded = false) :
    s.start a m = .refused .noProgram := by
  simp [State.start, hs, hloaded]

theorem start_seedOutOfRange (hs : s.status ≠ some .running) (hloaded : s.loaded = true) (ha : 2 ^ 64 ≤ a) :
    s.start a m = .refused .seedOutOfRange := by
  simp only [State.start, if_neg hs, hloaded, Bool.not_true, Bool.false_eq_true, if_false, if_pos ha]

/-- The state an accepted START leaves (spec/10_state.md R36). -/
theorem start_accepted (hs : s.status ≠ some .running) (hloaded : s.loaded = true) (ha : a < 2 ^ 64) :
    s.start a m = .next { s with
      a := BitVec.ofNat 64 a, b := 0, c := 0, pc := 0, out := [], fault := none, mode := m,
      runLen := some s.mem.length } := by
  simp only [State.start, if_neg hs, hloaded, Bool.not_true, Bool.false_eq_true, if_false, if_neg (Nat.not_le.mpr ha)]
  rfl

end start

/-- Settles O44: the checks in their order, and the reset values; over an empty program the new run has Halted. -/
theorem startResetsThePerRunState : Obligations.StartResetsThePerRunState := by
  refine fun s a m => ⟨fun hs => if_pos hs, start_noProgram, start_seedOutOfRange, fun hs hloaded ha => ?_⟩
  refine ⟨_, start_accepted hs hloaded ha, ?_, rfl, rfl, rfl, rfl, rfl, rfl, rfl, hloaded, rfl, ?_⟩
  · exact (BitVec.toNat_ofNat a 64).trans (Nat.mod_eq_of_lt ha)
  · by_cases hempty : s.mem.length = 0
    · rw [if_pos hempty]
      exact status_halted_iff.mpr ⟨_, rfl, rfl, by simp, hempty.le⟩
    · rw [if_neg hempty]
      exact status_running_iff.mpr ⟨_, rfl, rfl, by simp, Nat.pos_of_ne_zero hempty⟩

/-- Settles O49: LOAD writes none of what the status is computed from, START clears the fault. -/
theorem onlyStartLeavesFaulted : Obligations.OnlyStartLeavesFaulted := by
  refine fun s hs => ⟨fun t ht => ?_, fun bound p t ht => ?_, fun a m t ht => ?_⟩
  · obtain ⟨r, -, hstep⟩ := step_faulted hs
    cases hstep.symm.trans ht
  · obtain ⟨-, -, rfl⟩ := load_cases ht
    exact ⟨rfl, hs⟩
  · obtain ⟨-, -, -, rfl⟩ := start_cases ht
    refine ⟨rfl, fun hfaulted => ?_⟩
    obtain ⟨-, r, hr⟩ := status_faulted_iff.mp hfaulted
    cases hr

/-- Settles O50: by the status. -/
theorem resultReportsEndedRuns : Obligations.ResultReportsEndedRuns := by
  intro s
  unfold State.result
  match s.status with
  | none | some .running => exact ⟨by simp, nofun⟩
  | some .halted | some .stopped | some .faulted =>
    refine ⟨by simp, ?_⟩
    rintro _ ⟨⟩
    exact ⟨rfl, rfl, rfl, rfl, rfl, rfl, rfl⟩

end Sys2Proof.Machine
end

section
/-! SUPPORT. The listing of an output sequence (spec/50_host_interface.md R157). -/

namespace Sys2Proof.Machine

theorem listing_toList (ds : List Digit) : (listing ds).toList = listingChars ds := String.toList_ofList

theorem listingChars_cons_cons (d e : Digit) (ds : List Digit) :
    listingChars (d :: e :: ds) = Digit.char d :: ',' :: listingChars (e :: ds) := rfl

/-- A character for each digit and a comma between two. -/
theorem listingChars_length (ds : List Digit) : (listingChars ds).length = 2 * ds.length - 1 := by
  match ds with
  | [] | [_] => rfl
  | d :: e :: ds =>
    have ih := listingChars_length (e :: ds)
    simp only [listingChars_cons_cons, List.length_cons] at ih ⊢
    omega

theorem listingChars_digit (ds : List Digit) (k : Nat) : (listingChars ds)[2 * k]? = ds[k]?.map Digit.char := by
  match ds, k with
  | [], _ => rfl
  | [_], 0 => rfl
  | [_], k + 1 => rfl
  | _ :: _ :: _, 0 => rfl
  | d :: e :: ds, k + 1 => exact listingChars_digit (e :: ds) k

theorem listingChars_comma (ds : List Digit) (k : Nat) (hk : k + 1 < ds.length) :
    (listingChars ds)[2 * k + 1]? = some ',' := by
  match ds, k with
  | _ :: _ :: _, 0 => rfl
  | d :: e :: ds, k + 1 => exact listingChars_comma (e :: ds) k (Nat.lt_of_succ_lt_succ hk)

theorem digitChar_injective : Function.Injective Digit.char := by
  have key : ∀ d e : Digit, Digit.char d = Digit.char e → d = e := by decide
  exact fun d e => key d e

/-- The digits are read back from the even positions. -/
theorem listing_injective : Function.Injective listing := by
  intro ds es h
  have hchars : listingChars ds = listingChars es := by rw [← listing_toList, h, listing_toList]
  refine List.ext_getElem? fun k => Option.map_injective digitChar_injective ?_
  rw [← listingChars_digit, hchars, listingChars_digit]

/-- Settles O51: the positions of digits and commas, and the digits read back from them. -/
theorem listingIsFaithful : Obligations.ListingIsFaithful := by
  refine ⟨by decide, rfl, fun ds => ?_, fun ds es h => listing_injective h⟩
  rw [listing_toList]
  refine ⟨listingChars_length ds, fun k hk => ?_, listingChars_comma ds⟩
  rw [listingChars_digit, List.getElem?_eq_getElem hk, Option.map_some]

end Sys2Proof.Machine
end

section
/-! SUPPORT. The two run contracts: independence of the machine's history, of spare fuel, and the result by the run's
final status (spec/40_step_and_operands.md section 5, spec/50_host_interface.md R153, R154, R159). -/

namespace Sys2Proof.Machine

/-- What a run takes over from the state it is begun in: the program, in a machine that is not running. -/
structure SameProgram (s s' : State) : Prop where
  idle   : s.status ≠ some .running
  idle'  : s'.status ≠ some .running
  loaded : s.loaded = s'.loaded
  mem    : s.mem = s'.mem

section history
variable {s s' : State}

/-- START overwrites everything else. -/
theorem SameProgram.start_eq (h : SameProgram s s') (a : Nat) (m : Mode) : s.start a m = s'.start a m := by
  simp only [State.start, if_neg h.idle, if_neg h.idle', h.loaded, h.mem]

/-- The load before a run is refused alike in both machines, or leaves them with the same program. -/
theorem SameProgram.loadAsNeeded_cases (h : SameProgram s s') (bound : Option Nat) (p : Program) :
    (∃ r, loadAsNeeded bound p s = .refused r ∧ loadAsNeeded bound p s' = .refused r) ∨
      ∃ l l', loadAsNeeded bound p s = .next l ∧ loadAsNeeded bound p s' = .next l' ∧ SameProgram l l' := by
  simp only [loadAsNeeded, State.load, if_neg h.idle, if_neg h.idle', h.loaded, h.mem]
  split_ifs
  · exact .inr ⟨s, s', rfl, rfl, h⟩
  · exact .inl ⟨_, rfl, rfl⟩
  · exact .inl ⟨_, rfl, rfl⟩
  · exact .inl ⟨_, rfl, rfl⟩
  · exact .inr ⟨_, _, rfl, rfl, h.idle, h.idle', rfl, rfl⟩

theorem SameProgram.runProgram_eq (h : SameProgram s s') (fuel : Nat) (bound : Option Nat) (m : Mode) (a : Nat)
    (p : Program) : runProgram fuel bound m a p s = runProgram fuel bound m a p s' := by
  obtain ⟨r, hr, hr'⟩ | ⟨l, l', hl, hl', hsame⟩ := h.loadAsNeeded_cases bound p
  · simp only [runProgram, hr, hr']
  · simp only [runProgram, hl, hl', hsame.start_eq]

end history

/-- Settles O45: the two runs are the same, from the load on. -/
theorem runsAreIndependentOfHistory : Obligations.RunsAreIndependentOfHistory := by
  intro s s' fuel bound a p hs hs' hloaded hmem
  have hsame : SameProgram s s' := ⟨hs, hs', hloaded, hmem⟩
  exact ⟨congrArg resultOf (hsame.runProgram_eq ..), congrArg resultOf (hsame.runProgram_eq ..)⟩

section results
variable {s : State} {d : Digit} {ds : List Digit} {r : FaultRecord}

theorem runResult_sequence_iff :
    s.runResult = .sequence ds ↔ s.status = some .halted ∧ s.mode = .full ∧ s.out = ds := by
  unfold State.runResult
  split <;> simp_all

theorem runResult_noOutput_iff : s.runResult = .noOutput ↔ s.status = some .halted ∧ s.mode = .firstOut := by
  unfold State.runResult
  split <;> simp_all

theorem runResult_digit_iff :
    s.runResult = .digit d ↔ s.status = some .stopped ∧ ∃ ds, s.out = d :: ds := by
  unfold State.runResult
  split <;> simp_all

theorem runResult_malformed_iff : s.runResult = .malformed r ↔ s.status = some .faulted ∧ s.fault = some r := by
  unfold State.runResult
  split <;> simp_all

theorem runResult_running (hs : s.status = some .running) : s.runResult = .unfinished := by
  simp only [State.runResult, hs]

/-- Of a run that was begun, every end has a result. -/
theorem runResult_unfinished_iff (hstarted : s.status ≠ none) :
    s.runResult = .unfinished ↔ s.status = some .running := by
  refine ⟨fun h => ?_, runResult_running⟩
  match hs : s.status with
  | none => exact absurd hs hstarted
  | some .running => rfl
  | some .halted => match hm : s.mode with
    | .full => cases h.symm.trans (runResult_sequence_iff.mpr ⟨hs, hm, rfl⟩)
    | .firstOut => cases h.symm.trans (runResult_noOutput_iff.mpr ⟨hs, hm⟩)
  | some .stopped =>
    obtain ⟨-, -, -, hlen⟩ := status_stopped_iff.mp hs
    obtain ⟨d, ds, hout⟩ := List.exists_cons_of_length_pos hlen
    cases h.symm.trans (runResult_digit_iff.mpr ⟨hs, ds, hout⟩)
  | some .faulted =>
    obtain ⟨-, r, hr⟩ := status_faulted_iff.mp hs
    cases h.symm.trans (runResult_malformed_iff.mpr ⟨hs, hr⟩)

end results

section fuel
variable {n : Nat} {s : State}

/-- A run that has a result within some fuel goes the same way with more. -/
theorem runFor_add (more : Nat) (h : resultOf (runFor n s) ≠ .unfinished) : runFor (n + more) s = runFor n s := by
  induction n generalizing s with
  | zero =>
    have hs : s.status ≠ some .running := fun hs => h (runResult_running hs)
    rw [runFor_ended hs, runFor_ended hs]
  | succ n ih =>
    by_cases hs : s.status = some .running
    · rw [Nat.succ_add]
      simp only [runFor, if_pos hs] at h ⊢
      cases hstep : step s with
      | next t =>
        rw [hstep] at h
        exact ih h
      | fault f | refused r => rfl
    · rw [runFor_ended hs, runFor_ended hs]

theorem runProgram_add {bound : Option Nat} {m : Mode} {a : Nat} {p : Program} (more : Nat)
    (h : resultOf (runProgram n bound m a p s) ≠ .unfinished) :
    runProgram (n + more) bound m a p s = runProgram n bound m a p s := by
  cases hl : loadAsNeeded bound p s with
  | next l =>
    cases hu : l.start a m with
    | next u =>
      simp only [runProgram_of_start hl hu] at h ⊢
      exact runFor_add more h
    | fault f | refused r => simp only [runProgram, hl, hu]
  | fault f | refused r => simp only [runProgram, hl]

end fuel

/-- Settles O48: LOAD and START take no fuel, and the run that follows has ended. -/
theorem moreFuelGivesTheSameResult : Obligations.MoreFuelGivesTheSameResult := fun _ _ more _ _ _ =>
  ⟨fun h => congrArg resultOf (runProgram_add more h), fun h => congrArg resultOf (runProgram_add more h)⟩

/-- What holds of a run in the mode `m` from its START on, of any program. -/
structure InRun (m : Mode) (s : State) : Prop where
  mode      : s.mode = m
  started   : s.status ≠ none
  earlyStop : s.mode = .firstOut → s.out.length ≤ 1

section inRun
variable {m : Mode} {s t : State}

theorem start_inRun {a : Nat} (h : s.start a m = .next t) : InRun m t := by
  obtain ⟨-, -, -, rfl⟩ := start_cases h
  exact ⟨rfl, nofun, fun _ => Nat.zero_le 1⟩

theorem InRun.step (hs : InRun m s) (h : step s = .next t) : InRun m t := by
  obtain ⟨hrunning, i, -, he⟩ | ⟨-, rfl⟩ := step_effect_cases h
  · obtain ⟨hmode, -, hrun, -⟩ := he.frame
    have hstarted : t.runLen ≠ none := hrun ▸ mt status_none_iff.mpr hs.started
    exact ⟨hmode.trans hs.mode, mt status_none_iff.mp hstarted, he.earlyStop hrunning⟩
  · exact hs

theorem InRun.runFor {n : Nat} (hs : InRun m s) (h : runFor n s = .next t) : InRun m t := by
  induction n generalizing s with
  | zero =>
    cases h
    exact hs
  | succ n ih =>
    obtain ⟨-, u, hu, hrun⟩ | ⟨-, rfl⟩ := runFor_succ_cases h
    · exact ih (hs.step hu) hrun
    · exact hs

theorem runProgram_inRun {fuel a : Nat} {bound : Option Nat} {p : Program}
    (h : runProgram fuel bound m a p s = .next t) : InRun m t := by
  obtain ⟨l, u, -, hu, hrun⟩ := runProgram_cases h
  exact (start_inRun hu).runFor hrun

end inRun

/-- A result that is neither of the two failures is that of the state the run ended in. -/
theorem resultOf_eq_iff {o : Outcome} {x : RunResult} (hstuck : ∀ f, x ≠ .stuck f) (hrefused : ∀ r, x ≠ .refused r) :
    resultOf o = x ↔ ∃ t, o = .next t ∧ t.runResult = x := by
  cases o with
  | next s => simp [resultOf]
  | fault f => simp [resultOf, (hstuck f).symm]
  | refused r => simp [resultOf, (hrefused r).symm]

section contractResults
variable {fuel a : Nat} {bound : Option Nat} {m : Mode} {p : Program} {s : State} {x : RunResult}

/-- To say when a contract has a result it suffices to say it of the states such a run can end in. -/
theorem runProgram_result_iff {Q : State → Prop} (hstuck : ∀ f, x ≠ .stuck f) (hrefused : ∀ r, x ≠ .refused r)
    (hQ : ∀ t, InRun m t → (t.runResult = x ↔ Q t)) :
    resultOf (runProgram fuel bound m a p s) = x ↔ ∃ t, runProgram fuel bound m a p s = .next t ∧ Q t := by
  rw [resultOf_eq_iff hstuck hrefused]
  exact exists_congr fun t => and_congr_right fun ht => hQ t (runProgram_inRun ht)

theorem runProgram_result_ne (hstuck : ∀ f, x ≠ .stuck f) (hrefused : ∀ r, x ≠ .refused r)
    (hne : ∀ t, InRun m t → t.runResult ≠ x) : resultOf (runProgram fuel bound m a p s) ≠ x := by
  intro h
  obtain ⟨t, ht, hx⟩ := (resultOf_eq_iff hstuck hrefused).mp h
  exact hne t (runProgram_inRun ht) hx

end contractResults

section ends
variable {t : State} {d : Digit} {ds : List Digit}

theorem InRun.full_sequence_iff (h : InRun .full t) :
    t.runResult = .sequence ds ↔ t.status = some .halted ∧ t.out = ds := by
  simp only [runResult_sequence_iff, h.mode, true_and]

/-- Stopped is a status of the mode FIRST_OUT alone. -/
theorem InRun.full_ne_digit (h : InRun .full t) : t.runResult ≠ .digit d := by
  intro hd
  obtain ⟨hs, -⟩ := runResult_digit_iff.mp hd
  obtain ⟨-, -, hmode, -⟩ := status_stopped_iff.mp hs
  cases h.mode.symm.trans hmode

theorem InRun.full_ne_noOutput (h : InRun .full t) : t.runResult ≠ .noOutput := by
  intro hno
  obtain ⟨-, hmode⟩ := runResult_noOutput_iff.mp hno
  cases h.mode.symm.trans hmode

/-- A FIRST_OUT run has no second digit. -/
theorem InRun.firstOut_digit_iff (h : InRun .firstOut t) :
    t.runResult = .digit d ↔ t.status = some .stopped ∧ t.out = [d] := by
  rw [runResult_digit_iff]
  refine and_congr_right fun _ => ⟨?_, fun hout => ⟨[], hout⟩⟩
  rintro ⟨ds, hout⟩
  have hlen := h.earlyStop h.mode
  rw [hout, List.length_cons] at hlen
  rw [hout, List.length_eq_zero_iff.mp (by omega : ds.length = 0)]

/-- A FIRST_OUT run that halts has no digit, since with one it would have stopped. -/
theorem InRun.firstOut_noOutput_iff (h : InRun .firstOut t) :
    t.runResult = .noOutput ↔ t.status = some .halted ∧ t.out = [] := by
  rw [runResult_noOutput_iff]
  refine and_congr_right fun hs => ⟨fun hmode => ?_, fun _ => h.mode⟩
  obtain ⟨-, -, -, hstop, -⟩ := status_halted_iff.mp hs
  have hlen := not_and.mp hstop hmode
  exact List.length_eq_zero_iff.mp (by omega)

theorem InRun.firstOut_ne_sequence (h : InRun .firstOut t) : t.runResult ≠ .sequence ds := by
  intro hseq
  obtain ⟨-, hmode, -⟩ := runResult_sequence_iff.mp hseq
  cases h.mode.symm.trans hmode

end ends

/-- Settles O47: the results of the states a FULL run can end in. -/
theorem executeResultByFinalStatus : Obligations.ExecuteResultByFinalStatus := by
  refine fun s fuel bound a p => ⟨fun ds => ?_, fun r => ?_, fun d => ?_, ?_⟩
  · exact runProgram_result_iff nofun nofun fun _ h => h.full_sequence_iff
  · exact runProgram_result_iff nofun nofun fun _ _ => runResult_malformed_iff
  · exact runProgram_result_ne nofun nofun fun _ h => h.full_ne_digit
  · exact runProgram_result_ne nofun nofun fun _ h => h.full_ne_noOutput

/-- Settles O52: the results of the states a FIRST_OUT run can end in. -/
theorem earlyExitResultByFinalStatus : Obligations.EarlyExitResultByFinalStatus := by
  refine fun s fuel bound a p => ⟨fun d => ?_, ?_, fun r => ?_, ?_, fun ds => ?_⟩
  · exact runProgram_result_iff nofun nofun fun _ h => h.firstOut_digit_iff
  · exact runProgram_result_iff nofun nofun fun _ h => h.firstOut_noOutput_iff
  · exact runProgram_result_iff nofun nofun fun _ _ => runResult_malformed_iff
  · exact runProgram_result_iff nofun nofun fun _ h => runResult_unfinished_iff h.started
  · exact runProgram_result_ne nofun nofun fun _ h => h.firstOut_ne_sequence

end Sys2Proof.Machine
end
